-- ==== Sys2Proof/Word.lean ====
section
/-!
DEFINITION. The widths of the block's values (00_scope.md R7, 10_state.md R41).
-/
namespace Sys2Proof

/-- A 3-bit operation code, the `op` port (R89, R213). -/
abbrev OpCode := BitVec 3

/-- The frame buffer `bits`: `MAX_BITS` cells of one bit. Cell `i`, the bit that arrived as number `i` (R26, R51), is bit
`i` of the vector; so a Lean literal shows the FIRST bit rightmost, the reverse of the spec's bit strings (R9). `MAX_BITS`
is a parameter (U1, U3), 100 by default, and 127 is the largest a 7-bit `bitCount` can reach: the vector has room for
that many cells, of which a block has the first `MAX_BITS`; no operation sets another, and they are 0 (log 5). -/
abbrev FrameBuffer := BitVec 127

/-- `bitCount`, `BC_W` = 7 bits. -/
abbrev BitCount := BitVec 7

/-- `inactivityCounter`, `IC_W` = 12 bits. -/
abbrev Countdown := BitVec 12

/-- `facilityCode`, `FAC_W` = 12 bits. -/
abbrev FacilityCode := BitVec 12

/-- `cardCode`, `CARD_W` = 20 bits. -/
abbrev CardCode := BitVec 20

/-- A line identifier, opaque and of OPEN width `LINE_W` (R7, R23): nothing computes with it, so any number
stands for any identifier of any width (log 2). -/
abbrev LineId := Nat

end Sys2Proof
end

