-- ==== Sys2Proof/Config.lean ====
section
/-!
DEFINITION. What is fixed for a run: the constants of R5 and the format table, which U1 and U3 have a model carry as
configuration with the spec's values as defaults, and the parameters the spec leaves OPEN (R6). The state record carries
them and no operation writes them (R35, R36, log 1).
-/
namespace Sys2Proof

/-- The three formats of the lookup table (R71). -/
inductive FormatKind where
  | corp1000
  | w26
  | w32
  deriving DecidableEq, Repr

/-- One row of the format lookup table: `len`, `fs`, `fe`, `cs`, `ce` (R77); the ranges are half-open. -/
structure FormatRow where
  kind : FormatKind
  len : Nat
  fs : Nat
  fe : Nat
  cs : Nat
  ce : Nat
  deriving DecidableEq, Repr

/-- The parameters of the block. -/
structure Config where
  /-- `CAP`, the reader capacity ceiling: 0, 1, 2 or 3, where 0 encodes unbounded (R5). -/
  cap : Fin 4
  /-- `N_CH`, the channel count of a physical realisation; `none` is the abstract machine, which has no such
  bound (R6). -/
  physicalChannels : Option Nat
  /-- The format lookup table (R71): its default is `formatTable` of Decode.lean. -/
  formats : List FormatRow
  /-- `MAX_BITS` of R5, the capacity of a channel's frame buffer, in the width of `bitCount` (R7). -/
  maxBits : BitCount := 100#7
  /-- `WAIT` of R5, the value the inactivity counter is reloaded with, in the width of that counter (R7). -/
  wait : Countdown := 3000#12
  deriving DecidableEq, Repr

end Sys2Proof
end

