-- ==== Sys2Proof/Syntax.lean ====
section
/-!
DEFINITION. The operations of `spec/opcode_table.json`, one constructor a row, and the two forms in which the block
meets them: a code with operands on its ports (R89, R213), and a finished frame, a word of variable length, in a
channel's buffer (R71 to R75, R81).
-/
namespace Sys2Proof

/-- The rows of `spec/opcode_table.json`. In a frame row `ch` is the channel whose buffer holds the frame, `x` its
uninterpreted bits (bit `j` of `x` is the `j`-th of them in order of arrival), `f` its facility code and `k` its card code.
A channel is named by its index, from 0, in registration order, which is its handle (R104). -/
inductive Instr where
  /-- `CORP1000`: a finished frame of 35 bits (R74, R133). -/
  | corp1000 (ch : Nat) (x : BitVec 3) (f : BitVec 12) (k : BitVec 20)
  /-- `W26`: a finished frame of 26 bits (R72, R134). -/
  | w26 (ch : Nat) (x : BitVec 2) (f : BitVec 8) (k : BitVec 16)
  /-- `W32`: a finished frame of 32 bits (R73, R135). -/
  | w32 (ch : Nat) (x : BitVec 4) (f : BitVec 12) (k : BitVec 16)
  /-- `UNSUPPORTED`: a finished frame of any other length from 1 to 100, every bit uninterpreted (R136). -/
  | unsupported (ch : Nat) (frame : List Bool)
  /-- `NOP`, code 0 (R89). -/
  | nop
  /-- `EDGE0`, code 1: a falling edge on line 0 of channel `c` (R110). -/
  | edge0 (c : Nat)
  /-- `EDGE1`, code 2: a falling edge on line 1 of channel `c` (R111). -/
  | edge1 (c : Nat)
  /-- `POLL`, code 3 (R150). -/
  | poll
  /-- `REG`, code 4: two line identifiers, and whether a completion handler is supplied (R100). -/
  | reg (line0Id line1Id : LineId) (cb : Bool)
  /-- The reserved code 5 (R89). -/
  | reserved5
  /-- The reserved code 6 (R89). -/
  | reserved6
  /-- The reserved code 7 (R89). -/
  | reserved7
  /-- `SCAN`, the micro-operation of `POLL` on channel `c` (R120); it has no code. -/
  | scan (c : Nat)
  /-- `DECODE`, the micro-operation of `POLL` on channel `c` (R130); it has no code. -/
  | decode (c : Nat)
  deriving DecidableEq, Repr

/-- The operation ports of R213: the 3-bit code, and the operands that travel beside it (R89). -/
structure OpWord where
  op : OpCode
  ch : Nat
  regLine0 : LineId
  regLine1 : LineId
  regCb : Bool
  deriving DecidableEq, Repr

/-- What is sampled at one rising edge of the clock (R213): the reset input and the operation ports. -/
structure PortSample where
  rst : Bool
  word : OpWord
  deriving DecidableEq, Repr

/-- The encoded forms of R81: an `OP` row is a code on the ports, a `FRAME` row is a bit string of a channel, in order
of arrival. A `MICRO` row has no encoding. -/
inductive Encoding where
  | op (w : OpWord)
  | frame (ch : Nat) (bits : List Bool)
  deriving DecidableEq, Repr

/-- Why the decoder refuses a bit string. -/
inductive Reject where
  /-- No bits: length 0 is not a frame (R83). -/
  | emptyFrame
  /-- More than `MAX_BITS` bits: no buffer holds it (R51, R84). -/
  | overlongFrame
  deriving DecidableEq, Repr

end Sys2Proof
end

