-- ==== Sys2Proof/WellFormed.lean ====
section
/-!
DEFINITION. Which terms of `Instr` stand for a row of the table. Only `UNSUPPORTED` has a form to check: its frame has
from 1 to 100 bits and none of the three format lengths (R82, R83, R84, R136). Every other operand admits every value of
its type (R23, R75, R107 b); that a channel exists is the state's matter (R107 d). Beside it, which parameters are legal (R8).
-/
namespace Sys2Proof

/-- Length 0 is not a frame (R83). -/
def frameNonempty (frame : List Bool) : Bool := decide (0 < frame.length)

/-- The longest frame of `spec/opcode_table.json`: a frame is capped at `MAX_BITS` (R84), whose default is 100 (R5). -/
def frameFits (frame : List Bool) : Bool := decide (frame.length ≤ 100)

/-- None of the lengths of the format table (R82). -/
def frameOfNoFormat (frame : List Bool) : Bool :=
  decide (frame.length ≠ 26) && (decide (frame.length ≠ 32) && decide (frame.length ≠ 35))

/-- The instruction is well formed. -/
def Instr.wellFormed : Instr → Bool
  | .corp1000 _ _ _ _ => true
  | .w26 _ _ _ _ => true
  | .w32 _ _ _ _ => true
  | .unsupported _ frame => frameNonempty frame && (frameFits frame && frameOfNoFormat frame)
  | .nop => true
  | .edge0 _ => true
  | .edge1 _ => true
  | .poll => true
  | .reg _ _ _ => true
  | .reserved5 => true
  | .reserved6 => true
  | .reserved7 => true
  | .scan _ => true
  | .decode _ => true

/-- A row of the format table fits the buffer and the two code registers (R8, R80, 20_memory.md R55). -/
def FormatRow.fits (maxBits : BitCount) (row : FormatRow) : Bool :=
  (decide (row.fs ≤ row.fe) && decide (row.fe ≤ row.len) && decide (row.fe - row.fs ≤ 12)) &&
    ((decide (row.cs ≤ row.ce) && decide (row.ce ≤ row.len) && decide (row.ce - row.cs ≤ 20)) &&
      decide (row.len ≤ maxBits.toNat))

/-- The constraints between the parameters that the rules rely on (R8). -/
def Config.legal (cfg : Config) : Bool :=
  decide (2 ≤ cfg.wait.toNat) && (decide (35 ≤ cfg.maxBits.toNat) &&
    (cfg.formats.all (FormatRow.fits cfg.maxBits) && decide (cfg.formats.map FormatRow.len).Nodup))

end Sys2Proof
end

