-- ==== Sys2Proof/Decode.lean ====
section
/-!
DEFINITION. The format lookup table (R71), field assembly (R79), the decoder of the operation ports and of finished
frames, and after them the encoder, written from the same tables of the spec.
-/
namespace Sys2Proof

/-- Row 0 of R71, Corporate 1000: 35 bits, facility [2, 14), card [14, 34). -/
def rowCorp1000 : FormatRow := ⟨.corp1000, 35, 2, 14, 14, 34⟩

/-- Row 1 of R71, Wiegand-26: 26 bits, facility [1, 9), card [9, 25). -/
def rowW26 : FormatRow := ⟨.w26, 26, 1, 9, 9, 25⟩

/-- Row 2 of R71, Wiegand-32: 32 bits, facility [4, 16), card [16, 32). -/
def rowW32 : FormatRow := ⟨.w32, 32, 4, 16, 16, 32⟩

/-- The format lookup table, in the source's row order (R71): the default of `Config.formats`, and the table by which the
rows of `spec/opcode_table.json` are written. -/
def formatTable : List FormatRow := [rowCorp1000, rowW26, rowW32]

/-- The lookup by exact match on the frame length (R76, R131). -/
def lookupFormat (formats : List FormatRow) (n : Nat) : Option FormatRow := formats.find? fun row => row.len == n

/-- `extract` of R79 over any cells: starting value 0; for each index of `[start, stop)` in ascending order, shift left
by one and OR in that cell. -/
def extract (cell : Nat → Bool) (start stop : Nat) : Nat :=
  (List.range' start (stop - start)).foldl (fun acc i => (acc <<< 1) ||| (cell i).toNat) 0

/-- Cell `i` of a bit string, 0 beyond its end (the cells at and above the frame length are 0, R58). -/
def cellOf (bits : List Bool) (i : Nat) : Bool := bits.getD i false

/-- The uninterpreted cells at the listed indices, the first listed being bit 0. -/
def gather (n : Nat) (cell : Nat → Bool) (indices : List Nat) : BitVec n :=
  BitVec.ofNat n (indices.foldr (fun i acc => (cell i).toNat + 2 * acc) 0)

/-- The fields of a frame of a known format, per R72 to R74. -/
def decodeFormat (ch : Nat) (row : FormatRow) (cell : Nat → Bool) : Instr :=
  match row.kind with
  | .corp1000 => .corp1000 ch (gather 3 cell [0, 1, 34])
      (BitVec.ofNat 12 (extract cell row.fs row.fe)) (BitVec.ofNat 20 (extract cell row.cs row.ce))
  | .w26 => .w26 ch (gather 2 cell [0, 25])
      (BitVec.ofNat 8 (extract cell row.fs row.fe)) (BitVec.ofNat 16 (extract cell row.cs row.ce))
  | .w32 => .w32 ch (gather 4 cell [0, 1, 2, 3])
      (BitVec.ofNat 12 (extract cell row.fs row.fe)) (BitVec.ofNat 16 (extract cell row.cs row.ce))

/-- The kind of a frame is found from its length alone (R81, R131). -/
def decodeFrame (ch : Nat) (bits : List Bool) : Except Reject Instr :=
  match lookupFormat formatTable bits.length with
  | some row => .ok (decodeFormat ch row (cellOf bits))
  | none =>
    if frameNonempty bits then
      if frameFits bits then .ok (.unsupported ch bits) else .error .overlongFrame
    else .error .emptyFrame

/-- The operation codes of R89. Ports an operation does not use are ignored (R213). -/
def decodeOp (w : OpWord) : Instr :=
  if w.op = 0#3 then .nop
  else if w.op = 1#3 then .edge0 w.ch
  else if w.op = 2#3 then .edge1 w.ch
  else if w.op = 3#3 then .poll
  else if w.op = 4#3 then .reg w.regLine0 w.regLine1 w.regCb
  else if w.op = 5#3 then .reserved5
  else if w.op = 6#3 then .reserved6
  else .reserved7

/-- The whole decoder. -/
def decode : Encoding → Except Reject Instr
  | .op w => .ok (decodeOp w)
  | .frame ch bits => decodeFrame ch bits

/-! ### The encoder -/

/-- The bits of a field in order of arrival: the most significant first (R54). -/
def fieldBits {n : Nat} (v : BitVec n) : List Bool := (List.range n).map fun i => v.getLsbD (n - 1 - i)

/-- R74: `xxffffffffffffccccccccccccccccccccx`. -/
def corp1000Bits (x : BitVec 3) (f : BitVec 12) (k : BitVec 20) : List Bool :=
  [x.getLsbD 0, x.getLsbD 1] ++ (fieldBits f ++ (fieldBits k ++ [x.getLsbD 2]))

/-- R72: `xffffffffccccccccccccccccx`. -/
def w26Bits (x : BitVec 2) (f : BitVec 8) (k : BitVec 16) : List Bool :=
  [x.getLsbD 0] ++ (fieldBits f ++ (fieldBits k ++ [x.getLsbD 1]))

/-- R73: `xxxxffffffffffffcccccccccccccccc`. -/
def w32Bits (x : BitVec 4) (f : BitVec 12) (k : BitVec 16) : List Bool :=
  [x.getLsbD 0, x.getLsbD 1, x.getLsbD 2, x.getLsbD 3] ++ (fieldBits f ++ fieldBits k)

/-- A code whose operands are not used: the other ports carry zeros. -/
def plainWord (op : OpCode) : OpWord := ⟨op, 0, 0, 0, false⟩

/-- The encoding of an operation; `none` for the micro-operations, which have no code (R81). -/
def encode : Instr → Option Encoding
  | .corp1000 ch x f k => some (.frame ch (corp1000Bits x f k))
  | .w26 ch x f k => some (.frame ch (w26Bits x f k))
  | .w32 ch x f k => some (.frame ch (w32Bits x f k))
  | .unsupported ch frame => some (.frame ch frame)
  | .nop => some (.op (plainWord 0#3))
  | .edge0 c => some (.op { plainWord 1#3 with ch := c })
  | .edge1 c => some (.op { plainWord 2#3 with ch := c })
  | .poll => some (.op (plainWord 3#3))
  | .reg l0 l1 cb => some (.op ⟨4#3, 0, l0, l1, cb⟩)
  | .reserved5 => some (.op (plainWord 5#3))
  | .reserved6 => some (.op (plainWord 6#3))
  | .reserved7 => some (.op (plainWord 7#3))
  | .scan _ => none
  | .decode _ => none

/-! ### Words of the opcode table, as the host numbers them (log 8) -/

/-- How many bits a table word of more than one byte has: a frame's own length; five bytes that hold no bit above
index 34 are the 35-bit frame, whose length in whole bytes they are. -/
def tableFrameLength (nbits w : Nat) : Nat := if nbits = 40 ∧ w < 2 ^ 35 then 35 else nbits

/-- A table word as a frame: bit `i` of the word is the bit of index `i` (the first to arrive has index 0, R9). -/
def tableFrame (nbits w : Nat) : List Bool := (List.range (tableFrameLength nbits w)).map fun i => w.testBit i

/-- The encoding a table word stands for: up to one byte, a code on the 3-bit `op` port, the operands beside it zero;
above one byte, a frame on channel 0. -/
def tableEncoding (nbits w : Nat) : Option Encoding :=
  if nbits ≤ 8 then
    if w < 8 then some (.op (plainWord (BitVec.ofNat 3 w))) else none
  else some (.frame 0 (tableFrame nbits w))

/-- The instruction this decoder reads from a word of the opcode table. -/
def decodeTableWord (nbits w : Nat) : Option Instr :=
  match tableEncoding nbits w with
  | none => none
  | some e =>
    match decode e with
    | .ok i => some i
    | .error _ => none

end Sys2Proof
end

