-- ==== Sys2Proof/Machine/State.lean ====
section
/-!
DEFINITION. The state of the block (10_state.md), what a step can answer besides a next state, and the state after reset.
-/
namespace Sys2Proof.Machine

/-- One registered channel: `ReaderState` (R20), the fields in the source's order. `framePending` is derived (R31) and
stands in Flags.lean. -/
structure Channel where
  /-- Identifier of data line 0 (R23). -/
  line0 : LineId
  /-- Identifier of data line 1 (R23). -/
  line1 : LineId
  /-- The frame buffer (R26). -/
  bits : FrameBuffer
  /-- Number of bits accumulated, and the index of the next bit (R24). -/
  bitCount : BitCount
  /-- True once the inactivity timer has expired (R30). -/
  frameReady : Bool
  /-- The countdown, in polls (R25, R180). -/
  inactivityCounter : Countdown
  /-- The extracted facility code; nonzero only inside `DECODE` (R27). -/
  facilityCode : FacilityCode
  /-- The extracted card code; nonzero only inside `DECODE` (R27). -/
  cardCode : CardCode
  /-- The verdict on the last completed frame (R32). -/
  formatUnsupported : Bool
  /-- `onFrameDecoded`: a completion handler was supplied (R28). -/
  cbPresent : Bool
  deriving DecidableEq, Repr

/-- The decode event handed to the host: the four contract fields and the three copied from the reader's state (R171). -/
structure DecodeEvent where
  handle : Nat
  line0 : LineId
  line1 : LineId
  length : BitCount
  facilityCode : FacilityCode
  cardCode : CardCode
  unsupported : Bool
  deriving DecidableEq, Repr

/-- The result of `REG` (R100). -/
inductive RegResult where
  | ok (handle : Nat)
  | capacityExceeded
  deriving DecidableEq, Repr

/-- The outputs of the operation just performed: a result for `REG`, decode events for `POLL` in order, nothing
otherwise (R12, R213; log 3). -/
structure Outputs where
  regResult : Option RegResult
  events : List DecodeEvent
  deriving DecidableEq, Repr

/-- No output. -/
def Outputs.none : Outputs := ⟨Option.none, []⟩

/-- The machine: the block's state (the registry, R29), its parameters (R5, R6, R35, R36; log 1), the outputs of the last operation
(R12, log 3), and the serial stream of port samples the platform presents (R214, log 4). -/
structure State where
  config : Config
  /-- The registry, in registration order; `numReaders` is its length (R29). -/
  channels : List Channel
  /-- The samples still to come, oldest first. Not a queue of the block (R39). -/
  inputs : List PortSample
  outputs : Outputs
  deriving DecidableEq, Repr

/-- The block has no fault state, no halt and no error register (R160): no step faults, so there is no reason. -/
inductive Fault where
  deriving DecidableEq, Repr

/-- Why a step is refused. Each is safe: the model stops where hardware goes on. -/
inductive Refusal where
  /-- Raised by an arm of `exec` whose operation has no meaning yet. Safe. -/
  | notModelled (mnemonic : String)
  /-- Raised by `RESERVED5` to `RESERVED7`: a model refuses a reserved code (R89, U12). Safe. -/
  | reservedCode (code : OpCode)
  /-- Raised by an operation addressed to a channel index never issued (R107 d, U11). Safe. -/
  | channelNotRegistered (c : Nat)
  /-- Raised by `REG` with `CAP` = 0 beyond the channels of a physical realisation (R101, U13). Safe. -/
  | beyondPhysicalChannels
  /-- Raised by `DECODE` presented on its own for a channel that holds no finished frame (R130, R140; log 6). Safe. -/
  | noFinishedFrame (c : Nat)
  /-- Raised by a frame kind presented for a channel whose finished frame, if any, is another (R81, R131; log 6). Safe. -/
  | frameNotHeld (c : Nat)
  deriving DecidableEq, Repr

/-- The machine at power-on: no channel exists (R190). The constants and the format table have the spec's values (R5, R71,
R194), `CAP` = 0 and no physical bound are one legal choice of R6 (log 1), and no sample has been presented (log 4). -/
def State.reset : State where
  config := { cap := 0, physicalChannels := none, maxBits := 100#7, wait := 3000#12, formats := formatTable }
  channels := []
  inputs := []
  outputs := Outputs.none

end Sys2Proof.Machine
end

