-- ==== Sys2Proof/Machine/Flags.lean ====
section
/-!
DEFINITION. Every flag the spec gives (R30 to R33) that is computed from other state, and the per-channel state machine
read off the registers (R152).
-/
namespace Sys2Proof.Machine

/-- `framePending` = (`bitCount` > 0) and not `frameReady` (R31). -/
def Channel.framePending (ch : Channel) : Bool := decide (0#7 < ch.bitCount) && !ch.frameReady

/-- A finished frame: `bitCount` > 0 and `frameReady` = 1, the decode condition (R130, R150). -/
def Channel.finished (ch : Channel) : Bool := decide (0#7 < ch.bitCount) && ch.frameReady

/-- The verdict `formatUnsupported` of a frame of the given length: true when no row matches (R32, R132). -/
def verdict (formats : List FormatRow) (length : Nat) : Bool := (lookupFormat formats length).isNone

/-- The states of R152 that the registers show. `DECODED` lies inside `DECODE`. -/
inductive Phase where
  | idle
  | accumulating
  | quiescent
  deriving DecidableEq, Repr

/-- The state of a channel (R152). -/
def Channel.phase (ch : Channel) : Phase :=
  if ch.bitCount = 0#7 then .idle else if ch.frameReady then .quiescent else .accumulating

end Sys2Proof.Machine
end

