-- ==== Sys2Proof/Machine/Operands.lean ====
section
/-!
DEFINITION. The operand forms: a channel index, the bits of a channel's buffer, the frame a channel holds.
-/
namespace Sys2Proof.Machine

/-- `numReaders` (R29). -/
def State.numReaders (s : State) : Nat := s.channels.length

/-- The channel operand: `R[c]`, for `c < numReaders` (R11); no channel otherwise (R107 d, R190). -/
def State.channel? (s : State) (c : Nat) : Option Channel := s.channels[c]?

/-- `BufRead(c, i)`: one cell, without side effect (R53, R57). -/
def Channel.bufRead (ch : Channel) (i : Nat) : Bool := ch.bits.getLsbD i

/-- `extract(c, start, stop)` over the channel's buffer (R79). -/
def Channel.extract (ch : Channel) (start stop : Nat) : Nat := Sys2Proof.extract ch.bufRead start stop

/-- The frame a channel holds: its first `bitCount` cells in order of arrival (R51, R86). -/
def Channel.frame (ch : Channel) : List Bool := (List.range ch.bitCount.toNat).map ch.bufRead

end Sys2Proof.Machine
end

