-- ==== Sys2Proof/Machine/Ops.lean ====
section
/-!
DEFINITION. The named operations over the state, the buffer and the registers, which the meanings share; among them the
decode event with the frame reset that follows it, the block's only trap entry and return (60_exceptions.md R171 to R175).
-/
namespace Sys2Proof.Machine

/-! ### Updates of the machine -/

def State.withChannels (s : State) (chs : List Channel) : State := { s with channels := chs }

def State.withOutputs (s : State) (o : Outputs) : State := { s with outputs := o }

def State.withInputs (s : State) (xs : List PortSample) : State := { s with inputs := xs }

/-! ### Buffer primitives (R52) -/

/-- `BufSet(c, i)`: one cell to 1. -/
def Channel.bufSet (ch : Channel) (i : Nat) : Channel := { ch with bits := ch.bits ||| BitVec.twoPow 127 i }

/-- `BufClear(c)`: every cell to 0. -/
def Channel.bufClear (ch : Channel) : Channel := { ch with bits := 0#127 }

/-! ### Registration -/

/-- The channel a successful `REG` creates (R102, R103; the flags and codes by D5). -/
def Channel.registered (cfg : Config) (line0Id line1Id : LineId) (cb : Bool) : Channel where
  line0 := line0Id
  line1 := line1Id
  bits := 0#127
  bitCount := 0#7
  frameReady := false
  inactivityCounter := cfg.wait
  facilityCode := 0#12
  cardCode := 0#20
  formatUnsupported := false
  cbPresent := cb

/-! ### Bit capture -/

/-- The buffer has room for one more bit: `bitCount < MAX_BITS` (R112). -/
def Channel.hasRoom (cfg : Config) (ch : Channel) : Bool := decide (ch.bitCount.toNat < cfg.maxBits.toNat)

/-- `bitCount <- bitCount + 1`. -/
def Channel.advance (ch : Channel) : Channel := { ch with bitCount := ch.bitCount + 1#7 }

/-- The countdown restart that ends both edge operations: `frameReady <- 0`, `inactivityCounter <- WAIT` (R113). -/
def Channel.restart (cfg : Config) (ch : Channel) : Channel :=
  { ch with frameReady := false, inactivityCounter := cfg.wait }

/-- `EDGE0` on its channel (R110): a 0 bit is counted, never written; at the cap it is discarded (R112). -/
def Channel.captureZero (cfg : Config) (ch : Channel) : Channel :=
  if ch.hasRoom cfg then ch.advance.restart cfg else ch.restart cfg

/-- `EDGE1` on its channel (R111): the cell at `bitCount` is set, then `bitCount` is incremented; at the cap the bit is
discarded (R112). -/
def Channel.captureOne (cfg : Config) (ch : Channel) : Channel :=
  if ch.hasRoom cfg then (ch.bufSet ch.bitCount.toNat).advance.restart cfg else ch.restart cfg

/-! ### Timeout scanner -/

/-- The decrement with its floor at zero (R122). -/
def countDown (n : Countdown) : Countdown := if 0#12 < n then n - 1#12 else n

/-- `SCAN` on its channel (R120): skip when `frameReady` (R121); otherwise decrement (R122), and set `frameReady` when the
value after it is zero (R123). -/
def Channel.scan (ch : Channel) : Channel :=
  if ch.frameReady then ch
  else { ch with
    inactivityCounter := countDown ch.inactivityCounter
    frameReady := decide (countDown ch.inactivityCounter = 0#12) }

/-! ### Frame decoder -/

/-- `DECODE` step 3 with a matched row: both codes extracted and zero-extended, the verdict set to 0 (R130, R132). -/
def Channel.loadRow (row : FormatRow) (ch : Channel) : Channel :=
  { ch with
    facilityCode := BitVec.ofNat 12 (ch.extract row.fs row.fe)
    cardCode := BitVec.ofNat 20 (ch.extract row.cs row.ce)
    formatUnsupported := false }

/-- `DECODE` step 2, no row matched: the verdict set to 1, extraction skipped, the codes left as they are (R132, R136). -/
def Channel.loadUnsupported (ch : Channel) : Channel := { ch with formatUnsupported := true }

/-- Steps 1 to 3: classify by exact match on `bitCount` (R131); the channel is then in the state the handler sees, `DECODED`
(R138, R152). -/
def Channel.classify (formats : List FormatRow) (ch : Channel) : Channel :=
  match lookupFormat formats ch.bitCount.toNat with
  | some row => ch.loadRow row
  | none => ch.loadUnsupported

/-- The event record of channel `c` in the state `DECODED` (R171, R172). -/
def Channel.event (c : Nat) (ch : Channel) : DecodeEvent where
  handle := c
  line0 := ch.line0
  line1 := ch.line1
  length := ch.bitCount
  facilityCode := ch.facilityCode
  cardCode := ch.cardCode
  unsupported := ch.formatUnsupported

/-- Step 4: one event when a handler is present, none when not (R137). -/
def Channel.emit (c : Nat) (ch : Channel) : List DecodeEvent := if ch.cbPresent then [ch.event c] else []

/-- Step 5: the frame reset. `frameReady`, `inactivityCounter`, `formatUnsupported` are not written (R139, R192). -/
def Channel.frameReset (ch : Channel) : Channel :=
  { ch.bufClear with bitCount := 0#7, facilityCode := 0#12, cardCode := 0#20 }

/-- Steps 4 and 5 from the state `DECODED`: hand over the event, then reset, in the same atomic operation (R175). -/
def deliver (c : Nat) (decoded : Channel) : Channel × List DecodeEvent := (decoded.frameReset, decoded.emit c)

/-- `DECODE` on its channel (R130). -/
def decodeChannel (cfg : Config) (c : Nat) (ch : Channel) : Channel × List DecodeEvent :=
  deliver c (ch.classify cfg.formats)

/-! ### Polling pass -/

/-- One channel's part of a `POLL`: `SCAN`, then `DECODE` when the values it left make a finished frame (R150). -/
def pollChannel (cfg : Config) (c : Nat) (ch : Channel) : Channel × List DecodeEvent :=
  if ch.scan.finished then decodeChannel cfg c ch.scan else (ch.scan, [])

/-- The pass over the channels from index `c` on, in registration order: what each leaves and emits (R151). -/
def pollFrom (cfg : Config) : Nat → List Channel → List (Channel × List DecodeEvent)
  | _, [] => []
  | c, ch :: rest => pollChannel cfg c ch :: pollFrom cfg (c + 1) rest

/-! ### Completing an operation -/

/-- An operation ends: the registry it leaves and its outputs. -/
def State.complete (s : State) (chs : List Channel) (o : Outputs) : State := (s.withChannels chs).withOutputs o

/-- An operation addressed to channel `c`: it reads and writes that channel only (R51); an index never issued is refused
(R107 d). -/
def onChannel (c : Nat) (s : State) (f : Channel → Channel × List DecodeEvent) :
    Host.Outcome State Fault Refusal :=
  match s.channel? c with
  | none => .refused (.channelNotRegistered c)
  | some ch => .next (s.complete (s.channels.set c (f ch).1) ⟨none, (f ch).2⟩)

/-- An operation on the frame `frame` that channel `c` holds, finished: the five steps of R130 on it. Refused where the
channel does not hold that frame, finished (log 6). -/
def onFrame (c : Nat) (frame : List Bool) (s : State) : Host.Outcome State Fault Refusal :=
  match s.channel? c with
  | none => .refused (.channelNotRegistered c)
  | some ch =>
    if ch.finished && decide (ch.frame = frame) then onChannel c s (decodeChannel s.config c)
    else .refused (.frameNotHeld c)

end Sys2Proof.Machine
end

