-- ==== Sys2Proof/Machine/Capture.lean ====
section
/-!
DEFINITION. Bit capture (41_bit_capture.md): `EDGE0`, `EDGE1`.
-/
namespace Sys2Proof.Machine

/-- `EDGE0` (R110). No output (R12). -/
def execEdge0 (c : Nat) (s : State) : Host.Outcome State Fault Refusal :=
  onChannel c s fun ch => (ch.captureZero s.config, [])

/-- `EDGE1` (R111). No output (R12). -/
def execEdge1 (c : Nat) (s : State) : Host.Outcome State Fault Refusal :=
  onChannel c s fun ch => (ch.captureOne s.config, [])

end Sys2Proof.Machine
end

