-- ==== Sys2Proof/Machine/Codes.lean ====
section
/-!
DEFINITION. The codes of R89 that stand for no operation of the source: `NOP` and the reserved codes.
-/
namespace Sys2Proof.Machine

/-- `NOP`, code 0: no operation, no state change (R89), and no output. -/
def execNop (s : State) : Host.Outcome State Fault Refusal := .next (s.withOutputs Outputs.none)

/-- Code 5: a model refuses a reserved code (R89, U12). -/
def execReserved5 (_ : State) : Host.Outcome State Fault Refusal := .refused (.reservedCode 5#3)

/-- Code 6: a model refuses a reserved code (R89, U12). -/
def execReserved6 (_ : State) : Host.Outcome State Fault Refusal := .refused (.reservedCode 6#3)

/-- Code 7: a model refuses a reserved code (R89, U12). -/
def execReserved7 (_ : State) : Host.Outcome State Fault Refusal := .refused (.reservedCode 7#3)

end Sys2Proof.Machine
end

