-- ==== Sys2Proof/Machine/Decoder.lean ====
section
/-!
DEFINITION. The frame decoder (43_frame_decoder.md): the micro-operation `DECODE`. No step fetches it, since it has no
code; `POLL` performs it on a channel with a finished frame (R130).
-/
namespace Sys2Proof.Machine

/-- `DECODE` (R130): entered only with `bitCount > 0` and `frameReady = 1`, and refused where it is presented otherwise
(R140, log 6). -/
def execDecode (c : Nat) (s : State) : Host.Outcome State Fault Refusal :=
  match s.channel? c with
  | none => .refused (.channelNotRegistered c)
  | some ch => if ch.finished then onChannel c s (decodeChannel s.config c) else .refused (.noFinishedFrame c)

end Sys2Proof.Machine
end

