-- ==== Sys2Proof/Machine/FrameKinds.lean ====
section
/-!
DEFINITION. The four kinds of finished frame (43_frame_decoder.md R133 to R136): what `DECODE` does with each. The
instruction is the frame that channel `ch` holds; a meaning is refused where the channel does not hold it, finished (log 6).
The row of the block's format table that the frame's length matches gives the two ranges (R131).
-/
namespace Sys2Proof.Machine

/-- `CORP1000` (R133): 35 bits, `rowCorp1000` of the spec's table. -/
def execCorp1000 (ch : Nat) (x : BitVec 3) (f : BitVec 12) (k : BitVec 20) (s : State) :
    Host.Outcome State Fault Refusal :=
  onFrame ch (corp1000Bits x f k) s

/-- `W26` (R134): 26 bits, `rowW26` of the spec's table. -/
def execW26 (ch : Nat) (x : BitVec 2) (f : BitVec 8) (k : BitVec 16) (s : State) :
    Host.Outcome State Fault Refusal :=
  onFrame ch (w26Bits x f k) s

/-- `W32` (R135): 32 bits, `rowW32` of the spec's table. -/
def execW32 (ch : Nat) (x : BitVec 4) (f : BitVec 12) (k : BitVec 16) (s : State) :
    Host.Outcome State Fault Refusal :=
  onFrame ch (w32Bits x f k) s

/-- `UNSUPPORTED` (R136): a length that no row of the table has. -/
def execUnsupported (ch : Nat) (frame : List Bool) (s : State) : Host.Outcome State Fault Refusal :=
  onFrame ch frame s

end Sys2Proof.Machine
end

