-- ==== Sys2Proof/Machine/Polling.lean ====
section
/-!
DEFINITION. The polling pass (44_poll.md): `POLL`.
-/
namespace Sys2Proof.Machine

/-- `POLL` (R150): `SCAN` and, where a frame is finished, `DECODE`, for every channel in registration order. -/
def execPoll (s : State) : Host.Outcome State Fault Refusal :=
  .next (s.complete ((pollFrom s.config 0 s.channels).map Prod.fst)
    ⟨none, (pollFrom s.config 0 s.channels).flatMap Prod.snd⟩)

end Sys2Proof.Machine
end

