-- ==== Sys2Proof/Machine/Registry.lean ====
section
/-!
DEFINITION. The reader registry (40_reader_registry.md): `REG`.
-/
namespace Sys2Proof.Machine

/-- The capacity check of R101: `CAP ≠ 0` and `numReaders = CAP`. -/
def State.capacityExceeded (s : State) : Bool :=
  decide (s.config.cap ≠ 0) && decide (s.numReaders = s.config.cap.val)

/-- A realisation of `N_CH` channels with `CAP` = 0 has none left (R101, U13). -/
def State.physicallyFull (s : State) : Bool :=
  match s.config.physicalChannels with
  | none => false
  | some n => decide (s.config.cap = 0) && decide (n ≤ s.numReaders)

/-- `REG` (R105). `CapacityExceeded` is a result and changes no state of the block (R161). -/
def execReg (line0Id line1Id : LineId) (cb : Bool) (s : State) : Host.Outcome State Fault Refusal :=
  if s.capacityExceeded then .next (s.complete s.channels ⟨some .capacityExceeded, []⟩)
  else if s.physicallyFull then .refused .beyondPhysicalChannels
  else .next (s.complete (s.channels ++ [Channel.registered s.config line0Id line1Id cb]) ⟨some (.ok s.numReaders), []⟩)

end Sys2Proof.Machine
end

