-- ==== Sys2Proof/Machine/Scanner.lean ====
section
/-!
DEFINITION. The timeout scanner (42_timeout_scanner.md): the micro-operation `SCAN`. No step fetches it, since it has no
code; `POLL` performs it on every channel (R120).
-/
namespace Sys2Proof.Machine

/-- `SCAN` (R120). -/
def execScan (c : Nat) (s : State) : Host.Outcome State Fault Refusal :=
  onChannel c s fun ch => (ch.scan, [])

end Sys2Proof.Machine
end

