-- ==== Sys2Proof/Machine/Dispatch.lean ====
section
/-!
DEFINITION. One arm per row of `spec/opcode_table.json`.
-/
namespace Sys2Proof.Machine

/-- Performs one operation. -/
def exec (i : Instr) (s : State) : Host.Outcome State Fault Refusal :=
  match i with
  | .corp1000 ch x f k => Sys2Proof.Machine.execCorp1000 ch x f k s
  | .w26 ch x f k => Sys2Proof.Machine.execW26 ch x f k s
  | .w32 ch x f k => Sys2Proof.Machine.execW32 ch x f k s
  | .unsupported ch frame => Sys2Proof.Machine.execUnsupported ch frame s
  | .nop => Sys2Proof.Machine.execNop s
  | .edge0 c => Sys2Proof.Machine.execEdge0 c s
  | .edge1 c => Sys2Proof.Machine.execEdge1 c s
  | .poll => Sys2Proof.Machine.execPoll s
  | .reg l0 l1 cb => Sys2Proof.Machine.execReg l0 l1 cb s
  | .reserved5 => Sys2Proof.Machine.execReserved5 s
  | .reserved6 => Sys2Proof.Machine.execReserved6 s
  | .reserved7 => Sys2Proof.Machine.execReserved7 s
  | .scan c => Sys2Proof.Machine.execScan c s
  | .decode c => Sys2Proof.Machine.execDecode c s

end Sys2Proof.Machine
end

