-- ==== Sys2Proof/Machine/Ports.lean ====
section
/-!
DEFINITION. The reference port binding of R213: taking the next sample, the `rst` input, the output ports, the status
outputs of R40; and the placing of an encoded operation where the next step takes it.
-/
namespace Sys2Proof.Machine

/-- The next sample the platform presents, and the machine with the rest still to come (R214). -/
def State.fetch (s : State) : Option (PortSample × State) :=
  match s.inputs with
  | [] => none
  | x :: rest => some (x, s.withInputs rest)

/-- Nothing presented: the block does nothing on its own (R156), and no output is asserted (log 4). -/
def State.idle (s : State) : State := s.withOutputs Outputs.none

/-- The `rst` input: `numReaders <- 0`, no channel exists, nothing is output (R190, R213). -/
def State.powerOn (s : State) : State := s.complete [] Outputs.none

/-! ### Output ports -/

/-- `reg_ok`, and with it `reg_handle`. -/
def State.regHandle (s : State) : Option Nat :=
  match s.outputs.regResult with
  | some (.ok h) => some h
  | _ => none

/-- `reg_err`. -/
def State.regErr (s : State) : Bool := decide (s.outputs.regResult = some .capacityExceeded)

/-- `dec_valid[c]` and, where it is 1, `dec_fac[c]`, `dec_card[c]`, `dec_unsup[c]`, `dec_len[c]`. -/
def State.decoded (s : State) (c : Nat) : Option DecodeEvent := s.outputs.events.find? fun e => e.handle == c

/-- `st_framePending[c]`, computed from the stored registers; the other `st_*[c]` are the fields of `channel? c`. A channel
that was never registered has none (R40, U16). -/
def State.framePendingOf (s : State) (c : Nat) : Option Bool := (s.channel? c).map Channel.framePending

/-! ### Placing an encoded operation where the next step takes it (log 8) -/

/-- A sample that presents `w`, `rst` not asserted. -/
def present (w : OpWord) : PortSample := ⟨false, w⟩

/-- Channel 0 exists: where the registry is empty, the channel that `REG(0, 0, 1)` creates is put there (a channel's `REG`
comes before anything on it, R196). -/
def State.withChannelZero (s : State) : State :=
  match s.channels with
  | [] => s.withChannels [Channel.registered s.config 0 0 true]
  | _ :: _ => s

/-- A channel that holds the given frame, finished: the state `QUIESCENT` of R152. -/
def Channel.holding (frame : List Bool) (ch : Channel) : Channel :=
  { ch with
    bits := BitVec.ofNat 127 (frame.foldr (fun b acc => b.toNat + 2 * acc) 0)
    bitCount := BitVec.ofNat 7 frame.length
    frameReady := true
    inactivityCounter := 0#12 }

/-- Puts an encoded operation where the next step takes it: a code on the ports, as the first sample; a frame in its
channel's buffer, finished, with a `POLL` on the ports, which is how a frame comes to be decoded (R150). -/
def State.place (s : State) : Encoding → State
  | .op w => s.withInputs (present w :: s.inputs)
  | .frame ch frame =>
    (s.withChannels (s.channels.modify ch (Channel.holding frame))).withInputs (present (plainWord 3#3) :: s.inputs)

/-- The codes whose operand is a channel (R89). -/
def addressesChannel : Encoding → Bool
  | .op w => decide (w.op = 1#3) || decide (w.op = 2#3)
  | .frame _ _ => true

end Sys2Proof.Machine
end

