-- ==== Sys2Proof/Machine/Step.lean ====
section
/-!
DEFINITION. One step: one sample of the ports, performed completely (R213), and the placing of an opcode-table word
where the next step takes it.
-/
namespace Sys2Proof.Machine

/-- One rising edge of the clock (R213): `rst` overrides `op`; otherwise the decoded operation is performed. With no
sample to come nothing happens (R156, log 4). -/
def step (s : State) : Host.Outcome State Fault Refusal :=
  match s.fetch with
  | none => .next s.idle
  | some (x, s') => if x.rst then .next s'.powerOn else exec (decodeOp x.word) s'

/-- `s` with a word of the opcode table where the next step takes it; the channel it addresses, channel 0, exists (log 8).
A word that stands for nothing is not placed. -/
def State.withFetchWord (s : State) (nbits w : Nat) : State :=
  match tableEncoding nbits w with
  | none => s
  | some e => if addressesChannel e then s.withChannelZero.place e else s.place e

end Sys2Proof.Machine
end

