-- ==== Sys2Proof/Safety.lean ====
section
/-!
DEFINITION. What claims are stated in: the invariants of R37, what the host owes the block (R107 d, R101, U12), runs of
several steps, and the polling pass written as the loop of R150 over the micro-operations.
-/
namespace Sys2Proof.Machine

/-- R37 (c): the buffer is zero at and above the write position, and so beyond `MAX_BITS`, where there are no cells. -/
abbrev Channel.zeroAbove (ch : Channel) : Prop :=
  ∀ i < 127, ch.bitCount.toNat ≤ i → ch.bufRead i = false

/-- R37 (a) to (f), for one channel at an operation boundary. -/
abbrev Channel.Inv (cfg : Config) (ch : Channel) : Prop :=
  ch.bitCount.toNat ≤ cfg.maxBits.toNat ∧
  ch.inactivityCounter.toNat ≤ cfg.wait.toNat ∧
  ch.zeroAbove ∧
  (ch.facilityCode = 0#12 ∧ ch.cardCode = 0#20) ∧
  (ch.frameReady = true ↔ ch.inactivityCounter = 0#12) ∧
  ch.finished = false

/-- R37 for every registered channel, the range of `numReaders` (R41), and the constraints between the parameters (R8). -/
abbrev State.Inv (s : State) : Prop :=
  s.config.legal = true ∧ (s.config.cap ≠ 0 → s.numReaders ≤ s.config.cap.val) ∧
    ∀ ch ∈ s.channels, ch.Inv s.config

/-- What the host owes an operation, on the state and the operands alone: an issued channel index (R107 d), a code that
is not reserved (R89), a physical channel left for `REG` (R101), and for an operation that cannot be invoked on its own
its entry condition (R130, R81). -/
def accepts (i : Instr) (s : State) : Bool :=
  match i with
  | .corp1000 c x f k => (s.channel? c).any fun ch => ch.finished && decide (ch.frame = corp1000Bits x f k)
  | .w26 c x f k => (s.channel? c).any fun ch => ch.finished && decide (ch.frame = w26Bits x f k)
  | .w32 c x f k => (s.channel? c).any fun ch => ch.finished && decide (ch.frame = w32Bits x f k)
  | .unsupported c frame => (s.channel? c).any fun ch => ch.finished && decide (ch.frame = frame)
  | .nop => true
  | .edge0 c => decide (c < s.numReaders)
  | .edge1 c => decide (c < s.numReaders)
  | .poll => true
  | .reg _ _ _ => s.capacityExceeded || !s.physicallyFull
  | .reserved5 => false
  | .reserved6 => false
  | .reserved7 => false
  | .scan c => decide (c < s.numReaders)
  | .decode c => (s.channel? c).any Channel.finished

/-- The channel an operation is addressed to; none for `NOP`, `POLL`, `REG` and the reserved codes. -/
def addressee : Instr → Option Nat
  | .corp1000 c _ _ _ => some c
  | .w26 c _ _ _ => some c
  | .w32 c _ _ _ => some c
  | .unsupported c _ => some c
  | .nop => none
  | .edge0 c => some c
  | .edge1 c => some c
  | .poll => none
  | .reg _ _ _ => none
  | .reserved5 => none
  | .reserved6 => none
  | .reserved7 => none
  | .scan c => some c
  | .decode c => some c

/-- The decode events of one channel among those of an operation or a run. -/
def eventsOf (c : Nat) (es : List DecodeEvent) : List DecodeEvent := es.filter fun e => e.handle == c

/-- `n` steps: the state reached and every decode event on the way, in order; none where a step is refused. -/
def trace : Nat → State → Option (State × List DecodeEvent)
  | 0, s => some (s, [])
  | n + 1, s =>
    match step s with
    | .next t => (trace n t).map fun r => (r.1, t.outputs.events ++ r.2)
    | .fault _ => none
    | .refused _ => none

/-- The sample of a `POLL`. -/
def pollSample : PortSample := present (plainWord 3#3)

/-- The sample of an edge on channel `c`: line 1 carries a 1 bit, line 0 a 0 bit (R70). -/
def edgeSample (c : Nat) (b : Bool) : PortSample :=
  present { plainWord (if b then 2#3 else 1#3) with ch := c }

/-- What the decoder reports of a frame: the two codes and the `unsupported` flag (R174), from the frame's own bits. -/
def report (formats : List FormatRow) (frame : List Bool) : FacilityCode × CardCode × Bool :=
  match lookupFormat formats frame.length with
  | some row => (BitVec.ofNat 12 (extract (cellOf frame) row.fs row.fe),
      BitVec.ofNat 20 (extract (cellOf frame) row.cs row.ce), false)
  | none => (0#12, 0#20, true)

/-- One round of the loop of R150 on channel `c`, by the micro-operations themselves: `SCAN(c)`, then `DECODE(c)` if it
left `bitCount > 0` and `frameReady = 1`. -/
def pollRound (c : Nat) (s : State) : Option (State × List DecodeEvent) :=
  match exec (.scan c) s with
  | .next s1 =>
    if (s1.channel? c).any (fun ch => decide (0#7 < ch.bitCount) && ch.frameReady) then
      match exec (.decode c) s1 with
      | .next s2 => some (s2, s2.outputs.events)
      | .fault _ => none
      | .refused _ => none
    else some (s1, [])
  | .fault _ => none
  | .refused _ => none

/-- `for c in [a, a + n) ascending`, the events in the order they are emitted. -/
def pollLoop : Nat → Nat → State → Option (State × List DecodeEvent)
  | _, 0, s => some (s, [])
  | a, n + 1, s =>
    match pollRound a s with
    | some (s1, es) => (pollLoop (a + 1) n s1).map fun r => (r.1, es ++ r.2)
    | none => none

end Sys2Proof.Machine
end

