-- ==== Sys2Proof/Certificates/Slice0/Obligations.lean ====
section
/-!
DEFINITION. The statements for the provers, from the numbered rules of spec/. Each docstring names what it formalises; a
clause that rests on a decision or an inference the spec marks as its own, or on a choice of this model, says so.
-/

open Sys2Proof Sys2Proof.Machine

/-! ### Reset and the ports -/

/-- Power-on and `rst` leave no channel (R190, the spec's decision D15; R213, D14). That nothing is output and no sample is
pending after power-on is the model's choice (log 3, log 4). -/
def Obligations.PowerOnAndRstLeaveNoChannel : Prop :=
  (State.reset.numReaders = 0 ∧ (∀ c, State.reset.channel? c = none) ∧ State.reset.outputs = ⟨none, []⟩ ∧
    State.reset.inputs = []) ∧
  ∀ (s : State) (w : OpWord) (rest : List PortSample), s.inputs = ⟨true, w⟩ :: rest →
    step s = .next { s with channels := [], inputs := rest, outputs := ⟨none, []⟩ }

/-- One sample is taken and the operation it decodes to is performed completely (R12, R213); with no sample to come only
the outputs of the last operation go (the model's choice, log 4). -/
def Obligations.StepPerformsTheDecodedOperation : Prop :=
  (∀ (s : State) (w : OpWord) (rest : List PortSample) (i : Instr), s.inputs = ⟨false, w⟩ :: rest →
    decode (.op w) = .ok i → step s = exec i { s with inputs := rest }) ∧
  ∀ s : State, s.inputs = [] → step s = .next { s with outputs := ⟨none, []⟩ }

/-! ### Encodings -/

/-- The 3-bit operation codes, with the operands beside them (R89, the spec's decision D13), and ports an operation does not
use are ignored (R213). -/
def Obligations.OperationCodesDecode : Prop :=
  ∀ (ch : Nat) (l0 l1 : LineId) (cb : Bool),
    decode (.op ⟨0#3, ch, l0, l1, cb⟩) = .ok .nop ∧
    decode (.op ⟨1#3, ch, l0, l1, cb⟩) = .ok (.edge0 ch) ∧
    decode (.op ⟨2#3, ch, l0, l1, cb⟩) = .ok (.edge1 ch) ∧
    decode (.op ⟨3#3, ch, l0, l1, cb⟩) = .ok .poll ∧
    decode (.op ⟨4#3, ch, l0, l1, cb⟩) = .ok (.reg l0 l1 cb) ∧
    decode (.op ⟨5#3, ch, l0, l1, cb⟩) = .ok .reserved5 ∧
    decode (.op ⟨6#3, ch, l0, l1, cb⟩) = .ok .reserved6 ∧
    decode (.op ⟨7#3, ch, l0, l1, cb⟩) = .ok .reserved7

/-- Words written out from the spec: the source's own example S1, the vectors T11 and T16, and lengths 27, 0 and 101. -/
def Obligations.FrameWordsDecodeToTheirFields : Prop :=
  decode (.frame 0 [false, false,false,false,false,false,false,false,true,
    false,false,false,false,false,false,false,false,false,false,false,false,false,false,false,true, true])
      = .ok (.w26 0 2#2 1#8 1#16) ∧
  decode (.frame 1 [true,false,true,false, true,false,true,false,true,false,true,true,true,true,false,false,
    false,false,false,true,false,false,true,false,false,false,true,true,false,true,false,false])
      = .ok (.w32 1 5#4 0xABC#12 0x1234#16) ∧
  decode (.frame 2 [true,true, true,false,true,false,true,false,true,true,true,true,false,false,
    false,false,false,true,false,false,true,false,false,false,true,true,false,true,false,false,false,true,false,true, true])
      = .ok (.corp1000 2 7#3 0xABC#12 0x12345#20) ∧
  decode (.frame 0 (List.replicate 27 true)) = .ok (.unsupported 0 (List.replicate 27 true)) ∧
  decode (.frame 0 []) = .error .emptyFrame ∧
  decode (.frame 0 (List.replicate 101 true)) = .error .overlongFrame

/-- Decode and encode agree on every well-formed operation that has an encoding, with every operand at every value
(30_encoding.md R71 to R75, R79, R82, R89); exactly the micro-operations have none (R81). -/
def Obligations.DecodeOfEncodeIsTheOperation : Prop :=
  (∀ (i : Instr) (e : Encoding), i.wellFormed = true → encode i = some e → decode e = .ok i) ∧
  ∀ i : Instr, encode i = none ↔ (∃ c, i = .scan c) ∨ ∃ c, i = .decode c

/-- The other direction, on frames: every bit string the decoder accepts is the encoding of what it decodes to, so no bit of
a frame is dropped; and the accepted ones are exactly those of 1 to 100 bits (R82 to R84). -/
def Obligations.EncodeOfDecodedFrameIsTheFrame : Prop :=
  ∀ (c : Nat) (bits : List Bool),
    (∀ i, decode (.frame c bits) = .ok i → i.wellFormed = true ∧ encode i = some (.frame c bits)) ∧
    ((∃ i, decode (.frame c bits) = .ok i) ↔ 0 < bits.length ∧ bits.length ≤ 100)

/-- The format lookup is the exact match of R131 on the whole frame length, in every table; and in the table of R71, the
default of the parameter, it finds these rows. -/
def Obligations.FormatLookupIsExactMatch : Prop :=
  (∀ (formats : List FormatRow) (n : Nat),
    (∀ row, lookupFormat formats n = some row → row ∈ formats ∧ row.len = n) ∧
    (lookupFormat formats n = none ↔ ∀ row ∈ formats, row.len ≠ n)) ∧
  ∀ n : Nat,
    (lookupFormat Sys2Proof.formatTable n = some ⟨.corp1000, 35, 2, 14, 14, 34⟩ ↔ n = 35) ∧
    (lookupFormat Sys2Proof.formatTable n = some ⟨.w26, 26, 1, 9, 9, 25⟩ ↔ n = 26) ∧
    (lookupFormat Sys2Proof.formatTable n = some ⟨.w32, 32, 4, 16, 16, 32⟩ ↔ n = 32) ∧
    (lookupFormat Sys2Proof.formatTable n = none ↔ n ≠ 35 ∧ n ≠ 26 ∧ n ≠ 32)

/-- Field assembly: the closed form and the bound, which the spec marks as derived (R79, R80): the first bit to arrive is the
most significant (R54), and no set bit is shifted out. -/
def Obligations.FieldAssemblyClosedForm : Prop :=
  ∀ (cell : Nat → Bool) (start stop : Nat),
    extract cell start stop = (Finset.Ico start stop).sum (fun i => (cell i).toNat * 2 ^ (stop - 1 - i)) ∧
    extract cell start stop < 2 ^ (stop - start)

/-! ### `NOP`, reserved codes, refusals -/

/-- `NOP`: no state of the block changes (R89, the spec's decision D13); that the outputs of the last operation go is R213's
reading of the output ports (log 3). -/
def Obligations.NopChangesNoState : Prop :=
  ∀ s : State, exec .nop s = .next { s with outputs := ⟨none, []⟩ }

/-- A reserved code is refused in every state (R89). -/
def Obligations.ReservedCodesAreRefused : Prop :=
  ∀ s : State, exec .reserved5 s = .refused (.reservedCode 5#3) ∧ exec .reserved6 s = .refused (.reservedCode 6#3) ∧
    exec .reserved7 s = .refused (.reservedCode 7#3)

/-- An operation addressed to a channel index never issued is refused (R107 d, the spec's decision D10), whichever
operation it is. -/
def Obligations.OperationsOnUnissuedChannelsAreRefused : Prop :=
  ∀ (i : Instr) (c : Nat) (s : State), addressee i = some c → s.numReaders ≤ c →
    exec i s = .refused (.channelNotRegistered c)

/-- `DECODE` and the frame kinds cannot be invoked on their own (R130, R140, R81): presented for a channel that does not hold
such a finished frame they are refused (the model's choice, log 6). -/
def Obligations.DecodeOutsideItsEntryConditionIsRefused : Prop :=
  ∀ (c : Nat) (s : State) (ch : Channel), s.channel? c = some ch →
    (ch.bitCount = 0#7 ∨ ch.frameReady = false → exec (.decode c) s = .refused (.noFinishedFrame c)) ∧
    ∀ (i : Instr) (frame : List Bool), encode i = some (.frame c frame) →
      (ch.bitCount = 0#7 ∨ ch.frameReady = false ∨ ch.frame ≠ frame) → exec i s = .refused (.frameNotHeld c)

/-- The block never faults (R160), and an operation answers a next state exactly where the host keeps its duties
(R107 d, R101, R89; the entry conditions of log 6). -/
def Obligations.OperationsCompleteExactlyWhenAccepted : Prop :=
  ∀ (i : Instr) (s : State),
    ((∃ t, exec i s = .next t) ↔ accepts i s = true) ∧ ∀ f, exec i s ≠ .fault f

/-! ### `REG` -/

/-- A successful `REG` (R105): the new channel has the operands, zeroed counters and the countdown at `WAIT`; its flags, codes
and buffer are 0 by the spec's decision D5, its handle is its index by D8. Nothing else of the machine changes. -/
def Obligations.RegCreatesTheNextChannel : Prop :=
  ∀ (l0 l1 : LineId) (cb : Bool) (s : State),
    (s.config.cap = 0 ∨ s.numReaders ≠ s.config.cap.val) →
    (s.config.cap = 0 → ∀ n, s.config.physicalChannels = some n → s.numReaders < n) →
    exec (.reg l0 l1 cb) s = .next { s with
      channels := s.channels ++ [
        { line0 := l0, line1 := l1, bits := 0#127, bitCount := 0#7, frameReady := false, inactivityCounter := s.config.wait,
          facilityCode := 0#12, cardCode := 0#20, formatUnsupported := false, cbPresent := cb }]
      outputs := ⟨some (.ok s.numReaders), []⟩ }

/-- `CapacityExceeded` (R101, R161): the result of a `REG` at a nonzero cap that the registry has reached, with no state
changed; of no other operation, and never with `CAP` = 0. The `reg_err` bit is the spec's decision D14. -/
def Obligations.CapacityExceededChangesNoState : Prop :=
  (∀ (l0 l1 : LineId) (cb : Bool) (s : State), s.config.cap ≠ 0 → s.numReaders = s.config.cap.val →
    exec (.reg l0 l1 cb) s = .next { s with outputs := ⟨some .capacityExceeded, []⟩ }) ∧
  ∀ (i : Instr) (s t : State), exec i s = .next t → t.regErr = true →
    (∃ l0 l1 cb, i = .reg l0 l1 cb) ∧ s.config.cap ≠ 0 ∧ s.numReaders = s.config.cap.val

/-- `REG` beyond the channels of a physical realisation with `CAP` = 0 is refused (R101, the spec's decision D9). -/
def Obligations.RegBeyondPhysicalChannelsIsRefused : Prop :=
  ∀ (l0 l1 : LineId) (cb : Bool) (s : State) (n : Nat), s.config.cap = 0 → s.config.physicalChannels = some n →
    n ≤ s.numReaders → exec (.reg l0 l1 cb) s = .refused .beyondPhysicalChannels

/-- R106: a channel registered while others are mid-frame starts `IDLE`, armed (the classes of R38, which the spec marks as
derived; `frameReady` = 0 is its decision D5), is in the next `POLL`, after all earlier
channels, and has no effect on the frames in progress on other channels, in that `POLL` either. The parameters are legal
(R8). -/
def Obligations.RegDuringOperationJoinsTheNextPoll : Prop :=
  ∀ (l0 l1 : LineId) (cb : Bool) (s t : State), s.config.legal = true → exec (.reg l0 l1 cb) s = .next t →
    t.outputs.regResult = some (.ok s.numReaders) →
    (∃ ch, t.channel? s.numReaders = some ch ∧ ch.bitCount = 0#7 ∧ ch.frameReady = false ∧
      1 ≤ ch.inactivityCounter.toNat ∧ ch.inactivityCounter.toNat ≤ s.config.wait.toNat) ∧
    (∀ c, c < s.numReaders → t.channel? c = s.channel? c) ∧
    ∃ u v, exec .poll t = .next u ∧ exec .poll s = .next v ∧
      (∀ c, c < s.numReaders → u.channel? c = v.channel? c) ∧
      (∃ ch, u.channel? s.numReaders = some ch ∧ ch.inactivityCounter.toNat + 1 = s.config.wait.toNat ∧
        ch.frameReady = false) ∧
      u.outputs.events = v.outputs.events

/-! ### Bit capture -/

/-- `EDGE0` (R110): a 0 bit is counted and not written, `frameReady` is cleared, the countdown is reloaded, `framePending` is 1
afterwards (R110: "when `MAX_BITS` ≥ 1"); nothing else of the machine changes. -/
def Obligations.Edge0AppendsAZeroBit : Prop :=
  ∀ (c : Nat) (s : State) (ch : Channel), s.channel? c = some ch →
    let ch' : Channel := { ch with
      bitCount := if ch.bitCount.toNat < s.config.maxBits.toNat then ch.bitCount + 1#7 else ch.bitCount
      frameReady := false
      inactivityCounter := s.config.wait }
    exec (.edge0 c) s = .next { s with channels := s.channels.set c ch', outputs := ⟨none, []⟩ } ∧
    (ch.bitCount.toNat < s.config.maxBits.toNat → ch'.bitCount.toNat = ch.bitCount.toNat + 1) ∧
    (1 ≤ s.config.maxBits.toNat → ch'.framePending = true) ∧ decode (.op { plainWord 1#3 with ch := c }) = .ok (.edge0 c)

/-- `EDGE1` (R111): the cell at the old `bitCount` is set, every other cell stays, then as `EDGE0`. -/
def Obligations.Edge1AppendsAOneBit : Prop :=
  ∀ (c : Nat) (s : State) (ch : Channel), s.channel? c = some ch →
    ∃ ch' : Channel,
      exec (.edge1 c) s = .next { s with channels := s.channels.set c ch', outputs := ⟨none, []⟩ } ∧
      (∀ j, ch'.bufRead j = (ch.bufRead j ||
        (decide (ch.bitCount.toNat < s.config.maxBits.toNat) && decide (j = ch.bitCount.toNat)))) ∧
      ch' = { ch with
        bits := ch'.bits
        bitCount := if ch.bitCount.toNat < s.config.maxBits.toNat then ch.bitCount + 1#7 else ch.bitCount
        frameReady := false
        inactivityCounter := s.config.wait } ∧
      (ch.bitCount.toNat < s.config.maxBits.toNat → ch'.bitCount.toNat = ch.bitCount.toNat + 1) ∧
      (1 ≤ s.config.maxBits.toNat → ch'.framePending = true) ∧ decode (.op { plainWord 2#3 with ch := c }) = .ok (.edge1 c)

/-- R112: at `bitCount = MAX_BITS` neither edge writes the buffer or counts, and no flag records the loss; from a legal
`bitCount` the count stays in 0..`MAX_BITS` and a write falls below `MAX_BITS`. -/
def Obligations.FullBufferDiscardsTheBit : Prop :=
  ∀ (c : Nat) (s t : State) (ch : Channel) (i : Instr), (i = .edge0 c ∨ i = .edge1 c) → s.channel? c = some ch →
    exec i s = .next t →
    (ch.bitCount = s.config.maxBits → t.outputs = ⟨none, []⟩ ∧ ∃ ch', t.channel? c = some ch' ∧ ch'.bits = ch.bits ∧
      ch'.bitCount = ch.bitCount ∧ ch'.formatUnsupported = ch.formatUnsupported ∧ ch'.cbPresent = ch.cbPresent ∧
      ch'.facilityCode = ch.facilityCode ∧ ch'.cardCode = ch.cardCode) ∧
    (ch.bitCount.toNat ≤ s.config.maxBits.toNat → ∃ ch', t.channel? c = some ch' ∧
      ch'.bitCount.toNat ≤ s.config.maxBits.toNat ∧
      ∀ j, ch'.bufRead j ≠ ch.bufRead j → j = ch.bitCount.toNat ∧ j < s.config.maxBits.toNat)

/-- R52: a buffer changes in two ways only. `EDGE1` sets one cell, at `bitCount`, below the cap; everything else that changes
a buffer clears all of it: a decode (inside `POLL`, or as the micro-operation, which always does), and `REG` for the channel it
creates. -/
def Obligations.BufferWritesAreSetOrClear : Prop :=
  ∀ (i : Instr) (s t : State), exec i s = .next t → ∀ (c : Nat) (ch' : Channel), t.channel? c = some ch' →
    (∀ ch, s.channel? c = some ch →
      (∀ j, ch'.bufRead j = ch.bufRead j) ∨
      (i = .edge1 c ∧ ch.bitCount.toNat < s.config.maxBits.toNat ∧
        ∀ j, ch'.bufRead j = (ch.bufRead j || decide (j = ch.bitCount.toNat))) ∨
      ((i = .poll ∨ i = .decode c ∨ ∃ frame, encode i = some (.frame c frame)) ∧ ch'.bitCount = 0#7 ∧
        ∀ j, ch'.bufRead j = false)) ∧
    (i = .decode c → ∀ j, ch'.bufRead j = false) ∧
    (s.channel? c = none → (∃ l0 l1 cb, i = .reg l0 l1 cb) ∧ ∀ j, ch'.bufRead j = false)

/-! ### Timeout scanner -/

/-- `SCAN` (R120 to R123): skip when `frameReady` is 1; otherwise decrement with the floor at zero and set `frameReady` when
zero is reached. The floor case is the spec's decision D16. Nothing else changes. -/
def Obligations.ScanCountsDownToTheFrameBoundary : Prop :=
  ∀ (c : Nat) (s : State) (ch : Channel), s.channel? c = some ch →
    ∃ ch' : Channel,
      exec (.scan c) s = .next { s with channels := s.channels.set c ch', outputs := ⟨none, []⟩ } ∧
      (ch.frameReady = true → ch' = ch) ∧
      (ch.frameReady = false →
        ch' = { ch with inactivityCounter := ch'.inactivityCounter, frameReady := ch'.frameReady } ∧
        ch'.inactivityCounter.toNat = ch.inactivityCounter.toNat - 1 ∧
        (ch'.frameReady = true ↔ ch.inactivityCounter.toNat ≤ 1))

/-! ### Frame decoder and frame kinds -/

/-- `CORP1000` (R133): the codes are those of cells [2, 14) and [14, 34), whatever cells 0, 1 and 34 hold; then the event, when a
handler is present, and the frame reset (R130, R137, R139). The block's table has the row of R71, as by default. The verdict
0 is the spec's decision D4, the event record its D11. -/
def Obligations.Corp1000FrameIsDecoded : Prop :=
  ∀ (c : Nat) (x : BitVec 3) (f : BitVec 12) (k : BitVec 20) (s : State) (ch : Channel), s.channel? c = some ch →
    ch.frameReady = true → ch.bitCount = 35#7 → ch.frame = corp1000Bits x f k →
    lookupFormat s.config.formats 35 = some ⟨.corp1000, 35, 2, 14, 14, 34⟩ →
    f = BitVec.ofNat 12 (ch.extract 2 14) ∧ k = BitVec.ofNat 20 (ch.extract 14 34) ∧
    exec (.corp1000 c x f k) s = .next { s with
      channels := s.channels.set c { ch with
        bits := 0#127, bitCount := 0#7, facilityCode := 0#12, cardCode := 0#20, formatUnsupported := false }
      outputs := ⟨none, if ch.cbPresent then
        [{ handle := c, line0 := ch.line0, line1 := ch.line1, length := 35#7, facilityCode := f, cardCode := k,
           unsupported := false }] else []⟩ }

/-- `W26` (R134): the codes are those of cells [1, 9) and [9, 25), whatever cells 0 and 25 hold; then as R133, with the row
of R71 in the block's table. -/
def Obligations.W26FrameIsDecoded : Prop :=
  ∀ (c : Nat) (x : BitVec 2) (f : BitVec 8) (k : BitVec 16) (s : State) (ch : Channel), s.channel? c = some ch →
    ch.frameReady = true → ch.bitCount = 26#7 → ch.frame = w26Bits x f k →
    lookupFormat s.config.formats 26 = some ⟨.w26, 26, 1, 9, 9, 25⟩ →
    f = BitVec.ofNat 8 (ch.extract 1 9) ∧ k = BitVec.ofNat 16 (ch.extract 9 25) ∧
    exec (.w26 c x f k) s = .next { s with
      channels := s.channels.set c { ch with
        bits := 0#127, bitCount := 0#7, facilityCode := 0#12, cardCode := 0#20, formatUnsupported := false }
      outputs := ⟨none, if ch.cbPresent then
        [{ handle := c, line0 := ch.line0, line1 := ch.line1, length := 26#7, facilityCode := f.setWidth 12,
           cardCode := k.setWidth 20, unsupported := false }] else []⟩ }

/-- `W32` (R135): the codes are those of cells [4, 16) and [16, 32), whatever cells 0 to 3 hold; then as R133, with the
row of R71 in the block's table. -/
def Obligations.W32FrameIsDecoded : Prop :=
  ∀ (c : Nat) (x : BitVec 4) (f : BitVec 12) (k : BitVec 16) (s : State) (ch : Channel), s.channel? c = some ch →
    ch.frameReady = true → ch.bitCount = 32#7 → ch.frame = w32Bits x f k →
    lookupFormat s.config.formats 32 = some ⟨.w32, 32, 4, 16, 16, 32⟩ →
    f = BitVec.ofNat 12 (ch.extract 4 16) ∧ k = BitVec.ofNat 16 (ch.extract 16 32) ∧
    exec (.w32 c x f k) s = .next { s with
      channels := s.channels.set c { ch with
        bits := 0#127, bitCount := 0#7, facilityCode := 0#12, cardCode := 0#20, formatUnsupported := false }
      outputs := ⟨none, if ch.cbPresent then
        [{ handle := c, line0 := ch.line0, line1 := ch.line1, length := 32#7, facilityCode := f,
           cardCode := k.setWidth 20, unsupported := false }] else []⟩ }

/-- `UNSUPPORTED` (R136), a length that no row of the block's table has (by default, none of 26, 32, 35:
`FormatLookupIsExactMatch`): `formatUnsupported` is set, the codes are not extracted and remain what they are, 0 in every reachable
state (R37 d), and the event says so with the length; the buffer's content has no effect; then the frame reset. -/
def Obligations.UnsupportedFrameIsReported : Prop :=
  ∀ (c : Nat) (frame : List Bool) (s : State) (ch : Channel), s.channel? c = some ch →
    ch.frameReady = true → ch.bitCount ≠ 0#7 → lookupFormat s.config.formats ch.bitCount.toNat = none →
    ch.frame = frame →
    exec (.unsupported c frame) s = .next { s with
      channels := s.channels.set c { ch with
        bits := 0#127, bitCount := 0#7, facilityCode := 0#12, cardCode := 0#20, formatUnsupported := true }
      outputs := ⟨none, if ch.cbPresent then
        [{ handle := c, line0 := ch.line0, line1 := ch.line1, length := ch.bitCount, facilityCode := ch.facilityCode,
           cardCode := ch.cardCode, unsupported := true }] else []⟩ } ∧
    (ch.facilityCode = 0#12 → ch.cardCode = 0#20 → ∀ t, exec (.unsupported c frame) s = .next t →
      ∀ e ∈ t.outputs.events, e.facilityCode = 0#12 ∧ e.cardCode = 0#20 ∧ e.unsupported = true ∧ e.length = ch.bitCount)

/-- `DECODE` (R130): classification by the exact length in the block's table, extraction, the event when a handler is present,
the frame reset; `frameReady`, `inactivityCounter`, the lines and `cbPresent` are not written. With the table of R71, the
default, these are the numbers of R130. The verdict 0 of a match is the spec's decision D4, the event record its D11. -/
def Obligations.DecodePerformsItsFiveSteps : Prop :=
  ∀ (c : Nat) (s : State) (ch : Channel), s.channel? c = some ch → ch.frameReady = true → ch.bitCount ≠ 0#7 →
    let n := ch.bitCount.toNat
    ∃ (fac : FacilityCode) (card : CardCode) (unsup : Bool),
      exec (.decode c) s = .next { s with
        channels := s.channels.set c { ch with
          bits := 0#127, bitCount := 0#7, facilityCode := 0#12, cardCode := 0#20, formatUnsupported := unsup }
        outputs := ⟨none, if ch.cbPresent then
          [{ handle := c, line0 := ch.line0, line1 := ch.line1, length := ch.bitCount, facilityCode := fac,
             cardCode := card, unsupported := unsup }] else []⟩ } ∧
      (∀ row, lookupFormat s.config.formats n = some row → fac = BitVec.ofNat 12 (ch.extract row.fs row.fe) ∧
        card = BitVec.ofNat 20 (ch.extract row.cs row.ce) ∧ unsup = false) ∧
      (lookupFormat s.config.formats n = none → fac = ch.facilityCode ∧ card = ch.cardCode ∧ unsup = true) ∧
      (s.config.formats = Sys2Proof.formatTable →
        fac = BitVec.ofNat 12 (if n = 35 then ch.extract 2 14 else if n = 26 then ch.extract 1 9
          else if n = 32 then ch.extract 4 16 else ch.facilityCode.toNat) ∧
        card = BitVec.ofNat 20 (if n = 35 then ch.extract 14 34 else if n = 26 then ch.extract 9 25
          else if n = 32 then ch.extract 16 32 else ch.cardCode.toNat) ∧
        unsup = decide (n ≠ 35 ∧ n ≠ 26 ∧ n ≠ 32))

/-- `DECODE` performs the frame it finds: the held frame decodes to a frame kind, and performing that kind is performing
`DECODE` (R81, R131). -/
def Obligations.DecodePerformsTheHeldFrame : Prop :=
  ∀ (c : Nat) (s : State) (ch : Channel), s.channel? c = some ch → ch.frameReady = true → ch.bitCount ≠ 0#7 →
    ch.bitCount.toNat ≤ 100 →
    ∃ i, decode (.frame c ch.frame) = .ok i ∧ exec (.decode c) s = exec i s ∧ ∃ t, exec i s = .next t

/-- R139: after a decode, supported or not, with a handler or without, the count, the codes and all cells are reset;
`frameReady` stays 1, the countdown and the verdict on this frame are left; a `POLL` skips the channel; and the next captured
bit starts a fresh frame of length 1. -/
def Obligations.NextBitAfterADecodeStartsAFreshFrame : Prop :=
  ∀ (c : Nat) (s t : State) (ch : Channel), s.channel? c = some ch → exec (.decode c) s = .next t →
    ∃ ch', t.channel? c = some ch' ∧ ch'.bitCount = 0#7 ∧ ch'.facilityCode = 0#12 ∧ ch'.cardCode = 0#20 ∧
      (∀ j, ch'.bufRead j = false) ∧ ch'.frameReady = true ∧ ch'.inactivityCounter = ch.inactivityCounter ∧
      ch'.formatUnsupported = (lookupFormat s.config.formats ch.bitCount.toNat).isNone ∧
      (∃ v, exec .poll t = .next v ∧ v.channel? c = some ch' ∧ eventsOf c v.outputs.events = []) ∧
      (1 ≤ s.config.maxBits.toNat → ∀ b : Bool, ∃ u ch'', exec (if b then .edge1 c else .edge0 c) t = .next u ∧ u.channel? c = some ch'' ∧
        ch''.bitCount = 1#7 ∧ ∀ j, ch''.bufRead j = (b && decide (j = 0)))

/-- The block reads no cell outside the two ranges of the matched row, and none of an unsupported frame (R53, R75, R136): two
buffers that agree inside them give the same next state and the same event. -/
def Obligations.UninterpretedBitsHaveNoEffect : Prop :=
  ∀ (c : Nat) (s : State) (ch : Channel) (bits' : FrameBuffer), s.channel? c = some ch →
    (∀ row, lookupFormat s.config.formats ch.bitCount.toNat = some row →
      ∀ j, (row.fs ≤ j ∧ j < row.fe) ∨ (row.cs ≤ j ∧ j < row.ce) → bits'.getLsbD j = ch.bits.getLsbD j) →
    exec (.decode c) { s with channels := s.channels.set c { ch with bits := bits' } } = exec (.decode c) s

/-! ### Polling pass -/

/-- `POLL` is the loop of R150: for each channel in registration order, `SCAN(c)`, then `DECODE(c)` where the values it left make
a finished frame; the outputs are the events of the pass in order. It always completes. -/
def Obligations.PollIsTheScanDecodeLoop : Prop :=
  ∀ s : State, ∃ t r, exec .poll s = .next t ∧ pollLoop 0 s.numReaders s = some r ∧
    r.1.channels = t.channels ∧ r.1.config = t.config ∧ r.1.inputs = t.inputs ∧
    t.outputs = ⟨none, r.2⟩ ∧ t.config = s.config ∧ t.inputs = s.inputs ∧ t.numReaders = s.numReaders ∧
    decode (.op (plainWord 3#3)) = .ok .poll

/-- Events of one `POLL` come in strictly ascending channel index, so at most one a channel, and only of registered channels
with a handler (R151, R168, which the spec marks as derived; R137). That an event carries the lines and the length (`bitCount`)
is the model's choice to keep the optional fields of R171 (the spec's decision D11, log 3). -/
def Obligations.PollEventsAscendByChannel : Prop :=
  ∀ s t : State, exec .poll s = .next t →
    (t.outputs.events.map DecodeEvent.handle).Pairwise (· < ·) ∧
    ∀ e ∈ t.outputs.events, ∃ ch, s.channel? e.handle = some ch ∧ ch.cbPresent = true ∧
      e.line0 = ch.line0 ∧ e.line1 = ch.line1 ∧ e.length = ch.bitCount

/-- R155: for a channel with `bitCount = 0` a `POLL` makes no event and changes no frame register; expired, it changes nothing;
armed (its countdown running), it changes the countdown and, at its end, `frameReady`. With no channel `POLL` does nothing at
all. The floor of an unreachable countdown is `ScanCountsDownToTheFrameBoundary`'s. -/
def Obligations.PollOfAnIdleChannelTouchesOnlyTheCountdown : Prop :=
  (∀ (s t : State) (c : Nat) (ch : Channel), s.channel? c = some ch → ch.bitCount = 0#7 → exec .poll s = .next t →
    eventsOf c t.outputs.events = [] ∧
    ∃ ch', t.channel? c = some ch' ∧ (ch.frameReady = true → ch' = ch) ∧
      (ch.frameReady = false → ch.inactivityCounter ≠ 0#12 →
        ch' = { ch with inactivityCounter := ch'.inactivityCounter, frameReady := ch'.frameReady } ∧
        ch'.inactivityCounter.toNat + 1 = ch.inactivityCounter.toNat ∧
        (ch'.frameReady = true ↔ ch'.inactivityCounter = 0#12))) ∧
  ∀ s : State, s.numReaders = 0 → exec .poll s = .next { s with outputs := ⟨none, []⟩ }

/-- The per-channel state machine (R153): every row of its table, with the state names of R152 (the reading of registers as
states is the spec's decision D3). -/
def Obligations.ChannelStateMachineTransitions : Prop :=
  (∀ (l0 l1 : LineId) (cb : Bool) (s t : State), exec (.reg l0 l1 cb) s = .next t →
    t.outputs.regResult = some (.ok s.numReaders) →
    ∃ ch, t.channel? s.numReaders = some ch ∧ ch.phase = .idle ∧ ch.frameReady = false ∧
      ch.inactivityCounter = s.config.wait) ∧
  (∀ (c : Nat) (s : State) (ch : Channel) (i : Instr), s.channel? c = some ch → (i = .edge0 c ∨ i = .edge1 c) →
    1 ≤ s.config.maxBits.toNat → ∃ t ch', exec i s = .next t ∧ t.channel? c = some ch' ∧ ch'.phase = .accumulating ∧
      ch'.inactivityCounter = s.config.wait ∧ (ch.phase = .idle → ch'.bitCount = 1#7) ∧
      (ch.phase = .accumulating → ch.bitCount.toNat ≤ s.config.maxBits.toNat →
        ch'.bitCount.toNat = min (ch.bitCount.toNat + 1) s.config.maxBits.toNat)) ∧
  (∀ (c : Nat) (s : State) (ch : Channel), s.channel? c = some ch →
    ∃ t ch', exec .poll s = .next t ∧ t.channel? c = some ch' ∧
      (ch.phase = .idle → ch.frameReady = true → ch' = ch) ∧
      (ch.phase = .idle → ch.frameReady = false → ch'.phase = .idle ∧
        ch'.inactivityCounter.toNat = ch.inactivityCounter.toNat - 1 ∧
        (ch'.frameReady = true ↔ ch'.inactivityCounter = 0#12)) ∧
      (ch.phase = .accumulating → 1 < ch.inactivityCounter.toNat → ch'.phase = .accumulating ∧
        ch'.bitCount = ch.bitCount ∧ ch'.inactivityCounter.toNat = ch.inactivityCounter.toNat - 1) ∧
      (ch.phase = .accumulating → ch.inactivityCounter = 1#12 → ch'.phase = .idle ∧ ch'.frameReady = true ∧
        ch'.inactivityCounter = 0#12 ∧
        (ch.cbPresent = true → (eventsOf c t.outputs.events).length = 1)))

/-- An edge at any counter value, one tick from timeout included, keeps the frame from being marked ready on the next `POLL`
(R124, which the spec marks as derived), provided `WAIT` ≥ 2 (R8). -/
def Obligations.EdgeKeepsTheNextPollFromTimingOut : Prop :=
  ∀ (c : Nat) (s t u : State) (i : Instr), (i = .edge0 c ∨ i = .edge1 c) → 2 ≤ s.config.wait.toNat → exec i s = .next t →
    exec .poll t = .next u →
    eventsOf c u.outputs.events = [] ∧
    ∃ ch ch', t.channel? c = some ch ∧ u.channel? c = some ch' ∧ ch'.frameReady = false ∧
      ch'.inactivityCounter.toNat + 1 = s.config.wait.toNat ∧ ch'.bits = ch.bits ∧ ch'.bitCount = ch.bitCount

/-! ### Whole-machine rules -/

/-- A channel mid-frame whose countdown stands at `n` is decoded by the `n`-th poll and by no earlier one, exactly once
(R124, which the spec marks as derived; `n` = `WAIT` right after an edge). The verdict of a known format rests on the spec's
decision D4, the length in the event on its D11 (log 3). -/
def Obligations.FrameIsDecodedByTheLastPollOfItsWindow : Prop :=
  ∀ (c : Nat) (s : State) (ch : Channel) (rest : List PortSample), s.channel? c = some ch → ch.frameReady = false →
    ch.bitCount ≠ 0#7 → ch.cbPresent = true → ch.inactivityCounter ≠ 0#12 →
    s.inputs = List.replicate ch.inactivityCounter.toNat pollSample ++ rest →
    (∃ t es, trace (ch.inactivityCounter.toNat - 1) s = some (t, es) ∧ eventsOf c es = [] ∧
      t.channel? c = some { ch with inactivityCounter := 1#12 }) ∧
    ∃ t es e, trace ch.inactivityCounter.toNat s = some (t, es) ∧ eventsOf c es = [e] ∧ e.handle = c ∧
      e.length = ch.bitCount ∧ e.unsupported = (lookupFormat s.config.formats ch.bitCount.toNat).isNone ∧
      t.channel? c = some { ch with
        bits := 0#127, bitCount := 0#7, frameReady := true, inactivityCounter := 0#12, facilityCode := 0#12,
        cardCode := 0#20, formatUnsupported := (lookupFormat s.config.formats ch.bitCount.toNat).isNone }

/-- From any idle channel that meets R37, whatever other channels hold: the edges of any bit string, then `WAIT` polls, give that
channel exactly one event, which reports the length and the fields of the string capped at `MAX_BITS` (the property of HPW §8,
95_test_vectors.md S1, S2, S4; R84), for all legal parameters (R8). That a known format reports `unsupported` = 0 after an
unsupported frame is the spec's decision D4; the lines and the length in the event are its D11 (log 3). -/
def Obligations.EveryTransmittedFrameIsReportedOnce : Prop :=
  ∀ (c : Nat) (s : State) (ch : Channel) (sent : List Bool) (rest : List PortSample), s.config.legal = true →
    s.channel? c = some ch → ch.Inv s.config →
    ch.bitCount = 0#7 → ch.cbPresent = true → sent ≠ [] →
    s.inputs = sent.map (edgeSample c) ++ (List.replicate s.config.wait.toNat pollSample ++ rest) →
    ∃ t es, trace (sent.length + s.config.wait.toNat) s = some (t, es) ∧ t.inputs = rest ∧
      eventsOf c es = [
        { handle := c, line0 := ch.line0, line1 := ch.line1, length := BitVec.ofNat 7 (min sent.length s.config.maxBits.toNat),
          facilityCode := (report s.config.formats (sent.take s.config.maxBits.toNat)).1,
          cardCode := (report s.config.formats (sent.take s.config.maxBits.toNat)).2.1,
          unsupported := (report s.config.formats (sent.take s.config.maxBits.toNat)).2.2 }] ∧
      ∃ ch', t.channel? c = some ch' ∧ ch'.Inv s.config ∧ ch'.bitCount = 0#7 ∧ ch'.frameReady = true

/-- R37, which the spec marks as derived, with the range of `numReaders` (R41) and the legal parameters (R8): every step keeps it, from every state that meets
it. -/
def Obligations.EveryStepKeepsTheChannelInvariants : Prop :=
  ∀ s t : State, s.Inv → step s = .next t → t.Inv

/-- The machine after reset meets R37, and so does a channel as `REG` creates it. -/
def Obligations.ResetMeetsTheChannelInvariants : Prop :=
  State.reset.Inv ∧ ∀ (l0 l1 : LineId) (cb : Bool) (s t : State), s.Inv → exec (.reg l0 l1 cb) s = .next t → t.Inv

/-- R51: an operation on channel `c` writes only the state of channel `c` (every other is as before, with no event, under an
edge of a full buffer too) and reads no other: in two machines with the same constants and table that
agree on channel `c` it ends alike. -/
def Obligations.OperationsTouchTheirOwnChannelOnly : Prop :=
  (∀ (i : Instr) (s t : State) (c : Nat) (ch : Channel), i ≠ .poll → addressee i ≠ some c → s.channel? c = some ch →
    exec i s = .next t → t.channel? c = some ch ∧ eventsOf c t.outputs.events = []) ∧
  ∀ (i : Instr) (s s' t : State) (c : Nat), addressee i = some c → s.channel? c = s'.channel? c →
    s.config.maxBits = s'.config.maxBits → s.config.wait = s'.config.wait → s.config.formats = s'.config.formats →
    exec i s = .next t →
    ∃ t', exec i s' = .next t' ∧ t'.channel? c = t.channel? c ∧ t'.outputs = t.outputs

/-- R51 and R151, what an operation reads: a channel's next state and its events depend on that channel's state and the sample
only (and the constants and table, R35, R36), whatever the other channels, `CAP` and `N_CH` are. -/
def Obligations.ChannelDependsOnItsOwnStateOnly : Prop :=
  ∀ (s s' t t' : State) (c : Nat), s.inputs = s'.inputs → s.channel? c = s'.channel? c → (s.channel? c).isSome = true →
    s.config.maxBits = s'.config.maxBits → s.config.wait = s'.config.wait → s.config.formats = s'.config.formats →
    step s = .next t → step s' = .next t' →
    t.channel? c = t'.channel? c ∧ eventsOf c t.outputs.events = eventsOf c t'.outputs.events

/-- The parameters are fixed for a run, and an operation takes nothing from the samples still to come (R35, R66; log 1, log 4). -/
def Obligations.ParametersAreNeverWritten : Prop :=
  (∀ (i : Instr) (s t : State), exec i s = .next t → t.config = s.config ∧ t.inputs = s.inputs) ∧
  ∀ s t : State, step s = .next t → t.config = s.config ∧ t.inputs = s.inputs.tail

/-- R29, R23, R28: a channel, once created, stays under its index with its lines and handler bit; `numReaders` grows by one with
each successful `REG` and with nothing else. -/
def Obligations.RegistryOnlyGrowsByReg : Prop :=
  ∀ (i : Instr) (s t : State), exec i s = .next t →
    ((t.numReaders = s.numReaders ∧ ∀ h, t.outputs.regResult ≠ some (.ok h)) ∨
      ((∃ l0 l1 cb, i = .reg l0 l1 cb) ∧ t.numReaders = s.numReaders + 1 ∧
        t.outputs.regResult = some (.ok s.numReaders))) ∧
    ∀ (c : Nat) (ch : Channel), s.channel? c = some ch → ∃ ch', t.channel? c = some ch' ∧
      ch'.line0 = ch.line0 ∧ ch'.line1 = ch.line1 ∧ ch'.cbPresent = ch.cbPresent

/-- R166: on the ports, a decode event comes from a `POLL` and from nothing else; a step that is no `POLL` has none. -/
def Obligations.EventsComeOnlyFromPoll : Prop :=
  ∀ s t : State, step s = .next t → t.outputs.events ≠ [] →
    ∃ x rest, s.inputs = x :: rest ∧ x.rst = false ∧ decodeOp x.word = .poll

/-- R32, R208: a channel's verdict flag is written by a decode only, and then to the verdict on the frame decoded; no edge, no
scan and no registration of another channel touches it. -/
def Obligations.VerdictIsWrittenByADecodeOnly : Prop :=
  ∀ (i : Instr) (s t : State) (c : Nat) (ch ch' : Channel), exec i s = .next t → s.channel? c = some ch →
    t.channel? c = some ch' → ch'.formatUnsupported ≠ ch.formatUnsupported →
    (i = .poll ∨ i = .decode c ∨ ∃ frame, encode i = some (.frame c frame)) ∧ ch.bitCount ≠ 0#7 ∧ ch'.bitCount = 0#7 ∧
      ch'.formatUnsupported = (lookupFormat s.config.formats ch.bitCount.toNat).isNone

/-- The constants and the table have the spec's values from power-on (R5, R71, R194), as defaults of the parameters that U1 and
U3 make of them, and these meet the constraints of R8; `CAP` and `N_CH` at reset are the model's choice (log 1). -/
def Obligations.ResetHasTheSpecsConstants : Prop :=
  State.reset.config.maxBits.toNat = 100 ∧ State.reset.config.wait.toNat = 3000 ∧
  State.reset.config.formats =
    [⟨.corp1000, 35, 2, 14, 14, 34⟩, ⟨.w26, 26, 1, 9, 9, 25⟩, ⟨.w32, 32, 4, 16, 16, 32⟩] ∧
  State.reset.config.legal = true

/-- No read of the buffer leaves the frame in it, and no code is truncated, in any legal block (20_memory.md R55, 30_encoding.md
R80, which the spec marks as derived; R8): the row that a held frame matches lies within the frame, the frame within the
buffer, and the fields within the code registers. -/
def Obligations.LegalRowsStayWithinTheFrame : Prop :=
  ∀ (cfg : Config) (ch : Channel) (row : FormatRow), cfg.legal = true →
    lookupFormat cfg.formats ch.bitCount.toNat = some row →
    row.fe ≤ ch.bitCount.toNat ∧ row.ce ≤ ch.bitCount.toNat ∧ ch.bitCount.toNat ≤ cfg.maxBits.toNat ∧
    (BitVec.ofNat 12 (ch.extract row.fs row.fe)).toNat = ch.extract row.fs row.fe ∧
    (BitVec.ofNat 20 (ch.extract row.cs row.ce)).toNat = ch.extract row.cs row.ce ∧
    ch.extract row.fs row.fe = extract (cellOf ch.frame) row.fs row.fe ∧
    ch.extract row.cs row.ce = extract (cellOf ch.frame) row.cs row.ce
end

