-- ==== Sys2Proof/Laws/State.lean ====
section
/-!
SUPPORT. One lemma per field per update of the machine and of a channel, so that no proof unfolds a record update.
-/
namespace Sys2Proof.Machine

/-! ### The machine -/

@[simp] theorem State.withChannels_config (s : State) (chs : List Channel) : (s.withChannels chs).config = s.config := rfl
@[simp] theorem State.withChannels_channels (s : State) (chs : List Channel) : (s.withChannels chs).channels = chs := rfl
@[simp] theorem State.withChannels_inputs (s : State) (chs : List Channel) : (s.withChannels chs).inputs = s.inputs := rfl
@[simp] theorem State.withChannels_outputs (s : State) (chs : List Channel) : (s.withChannels chs).outputs = s.outputs := rfl

@[simp] theorem State.withOutputs_config (s : State) (o : Outputs) : (s.withOutputs o).config = s.config := rfl
@[simp] theorem State.withOutputs_channels (s : State) (o : Outputs) : (s.withOutputs o).channels = s.channels := rfl
@[simp] theorem State.withOutputs_inputs (s : State) (o : Outputs) : (s.withOutputs o).inputs = s.inputs := rfl
@[simp] theorem State.withOutputs_outputs (s : State) (o : Outputs) : (s.withOutputs o).outputs = o := rfl

@[simp] theorem State.withInputs_config (s : State) (xs : List PortSample) : (s.withInputs xs).config = s.config := rfl
@[simp] theorem State.withInputs_channels (s : State) (xs : List PortSample) : (s.withInputs xs).channels = s.channels := rfl
@[simp] theorem State.withInputs_inputs (s : State) (xs : List PortSample) : (s.withInputs xs).inputs = xs := rfl
@[simp] theorem State.withInputs_outputs (s : State) (xs : List PortSample) : (s.withInputs xs).outputs = s.outputs := rfl

@[simp] theorem State.complete_config (s : State) (chs : List Channel) (o : Outputs) : (s.complete chs o).config = s.config := rfl
@[simp] theorem State.complete_channels (s : State) (chs : List Channel) (o : Outputs) : (s.complete chs o).channels = chs := rfl
@[simp] theorem State.complete_inputs (s : State) (chs : List Channel) (o : Outputs) : (s.complete chs o).inputs = s.inputs := rfl
@[simp] theorem State.complete_outputs (s : State) (chs : List Channel) (o : Outputs) : (s.complete chs o).outputs = o := rfl

/-! ### A channel -/

@[simp] theorem Channel.bufSet_line0 (ch : Channel) (i : Nat) : (ch.bufSet i).line0 = ch.line0 := rfl
@[simp] theorem Channel.bufSet_line1 (ch : Channel) (i : Nat) : (ch.bufSet i).line1 = ch.line1 := rfl
@[simp] theorem Channel.bufSet_bits (ch : Channel) (i : Nat) : (ch.bufSet i).bits = ch.bits ||| BitVec.twoPow 127 i := rfl
@[simp] theorem Channel.bufSet_bitCount (ch : Channel) (i : Nat) : (ch.bufSet i).bitCount = ch.bitCount := rfl
@[simp] theorem Channel.bufSet_frameReady (ch : Channel) (i : Nat) : (ch.bufSet i).frameReady = ch.frameReady := rfl
@[simp] theorem Channel.bufSet_inactivityCounter (ch : Channel) (i : Nat) : (ch.bufSet i).inactivityCounter = ch.inactivityCounter := rfl
@[simp] theorem Channel.bufSet_facilityCode (ch : Channel) (i : Nat) : (ch.bufSet i).facilityCode = ch.facilityCode := rfl
@[simp] theorem Channel.bufSet_cardCode (ch : Channel) (i : Nat) : (ch.bufSet i).cardCode = ch.cardCode := rfl
@[simp] theorem Channel.bufSet_formatUnsupported (ch : Channel) (i : Nat) : (ch.bufSet i).formatUnsupported = ch.formatUnsupported := rfl
@[simp] theorem Channel.bufSet_cbPresent (ch : Channel) (i : Nat) : (ch.bufSet i).cbPresent = ch.cbPresent := rfl

@[simp] theorem Channel.bufClear_line0 (ch : Channel) : (ch.bufClear).line0 = ch.line0 := rfl
@[simp] theorem Channel.bufClear_line1 (ch : Channel) : (ch.bufClear).line1 = ch.line1 := rfl
@[simp] theorem Channel.bufClear_bits (ch : Channel) : (ch.bufClear).bits = 0#127 := rfl
@[simp] theorem Channel.bufClear_bitCount (ch : Channel) : (ch.bufClear).bitCount = ch.bitCount := rfl
@[simp] theorem Channel.bufClear_frameReady (ch : Channel) : (ch.bufClear).frameReady = ch.frameReady := rfl
@[simp] theorem Channel.bufClear_inactivityCounter (ch : Channel) : (ch.bufClear).inactivityCounter = ch.inactivityCounter := rfl
@[simp] theorem Channel.bufClear_facilityCode (ch : Channel) : (ch.bufClear).facilityCode = ch.facilityCode := rfl
@[simp] theorem Channel.bufClear_cardCode (ch : Channel) : (ch.bufClear).cardCode = ch.cardCode := rfl
@[simp] theorem Channel.bufClear_formatUnsupported (ch : Channel) : (ch.bufClear).formatUnsupported = ch.formatUnsupported := rfl
@[simp] theorem Channel.bufClear_cbPresent (ch : Channel) : (ch.bufClear).cbPresent = ch.cbPresent := rfl

@[simp] theorem Channel.advance_line0 (ch : Channel) : (ch.advance).line0 = ch.line0 := rfl
@[simp] theorem Channel.advance_line1 (ch : Channel) : (ch.advance).line1 = ch.line1 := rfl
@[simp] theorem Channel.advance_bits (ch : Channel) : (ch.advance).bits = ch.bits := rfl
@[simp] theorem Channel.advance_bitCount (ch : Channel) : (ch.advance).bitCount = ch.bitCount + 1#7 := rfl
@[simp] theorem Channel.advance_frameReady (ch : Channel) : (ch.advance).frameReady = ch.frameReady := rfl
@[simp] theorem Channel.advance_inactivityCounter (ch : Channel) : (ch.advance).inactivityCounter = ch.inactivityCounter := rfl
@[simp] theorem Channel.advance_facilityCode (ch : Channel) : (ch.advance).facilityCode = ch.facilityCode := rfl
@[simp] theorem Channel.advance_cardCode (ch : Channel) : (ch.advance).cardCode = ch.cardCode := rfl
@[simp] theorem Channel.advance_formatUnsupported (ch : Channel) : (ch.advance).formatUnsupported = ch.formatUnsupported := rfl
@[simp] theorem Channel.advance_cbPresent (ch : Channel) : (ch.advance).cbPresent = ch.cbPresent := rfl

@[simp] theorem Channel.restart_line0 (cfg : Config) (ch : Channel) : (ch.restart cfg).line0 = ch.line0 := rfl
@[simp] theorem Channel.restart_line1 (cfg : Config) (ch : Channel) : (ch.restart cfg).line1 = ch.line1 := rfl
@[simp] theorem Channel.restart_bits (cfg : Config) (ch : Channel) : (ch.restart cfg).bits = ch.bits := rfl
@[simp] theorem Channel.restart_bitCount (cfg : Config) (ch : Channel) : (ch.restart cfg).bitCount = ch.bitCount := rfl
@[simp] theorem Channel.restart_frameReady (cfg : Config) (ch : Channel) : (ch.restart cfg).frameReady = false := rfl
@[simp] theorem Channel.restart_inactivityCounter (cfg : Config) (ch : Channel) : (ch.restart cfg).inactivityCounter = cfg.wait := rfl
@[simp] theorem Channel.restart_facilityCode (cfg : Config) (ch : Channel) : (ch.restart cfg).facilityCode = ch.facilityCode := rfl
@[simp] theorem Channel.restart_cardCode (cfg : Config) (ch : Channel) : (ch.restart cfg).cardCode = ch.cardCode := rfl
@[simp] theorem Channel.restart_formatUnsupported (cfg : Config) (ch : Channel) : (ch.restart cfg).formatUnsupported = ch.formatUnsupported := rfl
@[simp] theorem Channel.restart_cbPresent (cfg : Config) (ch : Channel) : (ch.restart cfg).cbPresent = ch.cbPresent := rfl

@[simp] theorem Channel.loadRow_line0 (ch : Channel) (row : FormatRow) : (ch.loadRow row).line0 = ch.line0 := rfl
@[simp] theorem Channel.loadRow_line1 (ch : Channel) (row : FormatRow) : (ch.loadRow row).line1 = ch.line1 := rfl
@[simp] theorem Channel.loadRow_bits (ch : Channel) (row : FormatRow) : (ch.loadRow row).bits = ch.bits := rfl
@[simp] theorem Channel.loadRow_bitCount (ch : Channel) (row : FormatRow) : (ch.loadRow row).bitCount = ch.bitCount := rfl
@[simp] theorem Channel.loadRow_frameReady (ch : Channel) (row : FormatRow) : (ch.loadRow row).frameReady = ch.frameReady := rfl
@[simp] theorem Channel.loadRow_inactivityCounter (ch : Channel) (row : FormatRow) : (ch.loadRow row).inactivityCounter = ch.inactivityCounter := rfl
@[simp] theorem Channel.loadRow_facilityCode (ch : Channel) (row : FormatRow) : (ch.loadRow row).facilityCode = BitVec.ofNat 12 (ch.extract row.fs row.fe) := rfl
@[simp] theorem Channel.loadRow_cardCode (ch : Channel) (row : FormatRow) : (ch.loadRow row).cardCode = BitVec.ofNat 20 (ch.extract row.cs row.ce) := rfl
@[simp] theorem Channel.loadRow_formatUnsupported (ch : Channel) (row : FormatRow) : (ch.loadRow row).formatUnsupported = false := rfl
@[simp] theorem Channel.loadRow_cbPresent (ch : Channel) (row : FormatRow) : (ch.loadRow row).cbPresent = ch.cbPresent := rfl

@[simp] theorem Channel.loadUnsupported_line0 (ch : Channel) : (ch.loadUnsupported).line0 = ch.line0 := rfl
@[simp] theorem Channel.loadUnsupported_line1 (ch : Channel) : (ch.loadUnsupported).line1 = ch.line1 := rfl
@[simp] theorem Channel.loadUnsupported_bits (ch : Channel) : (ch.loadUnsupported).bits = ch.bits := rfl
@[simp] theorem Channel.loadUnsupported_bitCount (ch : Channel) : (ch.loadUnsupported).bitCount = ch.bitCount := rfl
@[simp] theorem Channel.loadUnsupported_frameReady (ch : Channel) : (ch.loadUnsupported).frameReady = ch.frameReady := rfl
@[simp] theorem Channel.loadUnsupported_inactivityCounter (ch : Channel) : (ch.loadUnsupported).inactivityCounter = ch.inactivityCounter := rfl
@[simp] theorem Channel.loadUnsupported_facilityCode (ch : Channel) : (ch.loadUnsupported).facilityCode = ch.facilityCode := rfl
@[simp] theorem Channel.loadUnsupported_cardCode (ch : Channel) : (ch.loadUnsupported).cardCode = ch.cardCode := rfl
@[simp] theorem Channel.loadUnsupported_formatUnsupported (ch : Channel) : (ch.loadUnsupported).formatUnsupported = true := rfl
@[simp] theorem Channel.loadUnsupported_cbPresent (ch : Channel) : (ch.loadUnsupported).cbPresent = ch.cbPresent := rfl

@[simp] theorem Channel.frameReset_line0 (ch : Channel) : (ch.frameReset).line0 = ch.line0 := rfl
@[simp] theorem Channel.frameReset_line1 (ch : Channel) : (ch.frameReset).line1 = ch.line1 := rfl
@[simp] theorem Channel.frameReset_bits (ch : Channel) : (ch.frameReset).bits = 0#127 := rfl
@[simp] theorem Channel.frameReset_bitCount (ch : Channel) : (ch.frameReset).bitCount = 0#7 := rfl
@[simp] theorem Channel.frameReset_frameReady (ch : Channel) : (ch.frameReset).frameReady = ch.frameReady := rfl
@[simp] theorem Channel.frameReset_inactivityCounter (ch : Channel) : (ch.frameReset).inactivityCounter = ch.inactivityCounter := rfl
@[simp] theorem Channel.frameReset_facilityCode (ch : Channel) : (ch.frameReset).facilityCode = 0#12 := rfl
@[simp] theorem Channel.frameReset_cardCode (ch : Channel) : (ch.frameReset).cardCode = 0#20 := rfl
@[simp] theorem Channel.frameReset_formatUnsupported (ch : Channel) : (ch.frameReset).formatUnsupported = ch.formatUnsupported := rfl
@[simp] theorem Channel.frameReset_cbPresent (ch : Channel) : (ch.frameReset).cbPresent = ch.cbPresent := rfl

end Sys2Proof.Machine
end

