-- ==== Sys2Proof/Laws/Fields.lean ====
section
/-!
SUPPORT. Field assembly (R79), the buffer primitives (R52) and the format table (R71): one lemma for each thing they do.
-/
namespace Sys2Proof

/-- An empty range gives 0. -/
theorem extract_empty (cell : Nat → Bool) (start : Nat) : extract cell start start = 0 := by
  simp [extract]

/-- One more cell: shift left by one, and OR that cell in. -/
theorem extract_succ (cell : Nat → Bool) (start n : Nat) :
    extract cell start (start + (n + 1)) = (extract cell start (start + n)) <<< 1 ||| (cell (start + n)).toNat := by
  have h1 : start + (n + 1) - start = n + 1 := by omega
  have h2 : start + n - start = n := by omega
  simp only [extract, h1, h2, List.range'_1_concat, List.foldl_append, List.foldl_cons, List.foldl_nil]

/-- Every bit of a field: bit `j` is the cell `j` places before the last of the range (R54, R79). -/
theorem testBit_extract (cell : Nat → Bool) (start n j : Nat) :
    (extract cell start (start + n)).testBit j = (decide (j < n) && cell (start + (n - 1 - j))) := by
  induction n generalizing j with
  | zero => simp [extract_empty]
  | succ n ih =>
    rw [extract_succ, Nat.testBit_or, Nat.testBit_shiftLeft, ih, Nat.testBit_bool_toNat]
    cases j with
    | zero => simp
    | succ j =>
      have e : n - 1 - j = n - (j + 1) := by omega
      simp [e]

/-- A field reads no cell outside its range. -/
theorem extract_congr {cell cell' : Nat → Bool} {start stop : Nat}
    (h : ∀ i, start ≤ i → i < stop → cell i = cell' i) : extract cell start stop = extract cell' start stop := by
  unfold extract
  have hmem : ∀ i ∈ List.range' start (stop - start), cell i = cell' i := by
    intro i hi
    rw [List.mem_range'_1] at hi
    exact h i hi.1 (by omega)
  generalize List.range' start (stop - start) = l at hmem
  generalize 0 = acc
  induction l generalizing acc with
  | nil => rfl
  | cons i l ih =>
    simp only [List.foldl_cons]
    rw [hmem i (by simp)]
    exact ih (fun j hj => hmem j (by simp [hj])) _

/-- The bits of a field in order of arrival, by index (R54). -/
theorem getElem?_fieldBits {n : Nat} (v : BitVec n) (i : Nat) :
    (fieldBits v)[i]? = if i < n then some (v.getLsbD (n - 1 - i)) else none := by
  simp only [fieldBits, List.getElem?_map]
  split <;> simp_all

theorem length_fieldBits {n : Nat} (v : BitVec n) : (fieldBits v).length = n := by simp [fieldBits]

theorem cellOf_fieldBits {n : Nat} (v : BitVec n) {i : Nat} (h : i < n) :
    cellOf (fieldBits v) i = v.getLsbD (n - 1 - i) := by
  simp [cellOf, List.getD, getElem?_fieldBits, h]

theorem cellOf_append (a b : List Bool) (i : Nat) :
    cellOf (a ++ b) i = if i < a.length then cellOf a i else cellOf b (i - a.length) := by
  simp only [cellOf, List.getD, List.getElem?_append]
  split <;> rfl

/-- Extraction undoes the encoder's field: a range that holds a field's bits in order of arrival gives that field. -/
theorem ofNat_extract_fieldBits {n : Nat} (v : BitVec n) {cell : Nat → Bool} {start : Nat}
    (h : ∀ i, i < n → cell (start + i) = v.getLsbD (n - 1 - i)) :
    BitVec.ofNat n (extract cell start (start + n)) = v := by
  apply BitVec.eq_of_getLsbD_eq
  intro j hj
  rw [BitVec.getLsbD_ofNat, testBit_extract]
  simp only [hj, decide_true, Bool.true_and]
  rw [h _ (by omega)]
  congr 1
  omega

/-- The encoder's field undoes extraction. -/
theorem fieldBits_ofNat_extract (n : Nat) (cell : Nat → Bool) (start : Nat) :
    fieldBits (BitVec.ofNat n (extract cell start (start + n))) = (List.range' start n).map cell := by
  apply List.ext_getElem?
  intro i
  rw [getElem?_fieldBits, List.getElem?_map]
  by_cases h : i < n
  · rw [List.getElem?_range' h, BitVec.getLsbD_ofNat, testBit_extract, if_pos h]
    have e : n - 1 - (n - 1 - i) = i := by omega
    simp [e]
    omega
  · rw [List.getElem?_eq_none (by simp; omega), if_neg h]
    rfl

/-- In the spec's table at most three lengths have a row, each its own. -/
theorem lookupFormat_eq (n : Nat) :
    lookupFormat formatTable n = if n = 35 then some rowCorp1000 else if n = 26 then some rowW26
      else if n = 32 then some rowW32 else none := by
  unfold lookupFormat formatTable
  by_cases h35 : n = 35
  · subst h35; rfl
  · by_cases h26 : n = 26
    · subst h26; rfl
    · by_cases h32 : n = 32
      · subst h32; rfl
      · simp only [List.find?, rowCorp1000, rowW26, rowW32, h35, h26, h32, if_false]
        rw [beq_false_of_ne (Ne.symm h35), beq_false_of_ne (Ne.symm h26), beq_false_of_ne (Ne.symm h32)]

/-- A frame of no format's length has no row in the spec's table. -/
theorem lookupFormat_of_frameOfNoFormat {frame : List Bool} (h : frameOfNoFormat frame = true) :
    lookupFormat formatTable frame.length = none := by
  simp only [frameOfNoFormat, Bool.and_eq_true, decide_eq_true_eq] at h
  rw [lookupFormat_eq, if_neg h.2.2, if_neg h.1, if_neg h.2.1]

/-- A row found is one of the table, of that length (R76). -/
theorem lookupFormat_some {formats : List FormatRow} {n : Nat} {row : FormatRow} (h : lookupFormat formats n = some row) :
    row ∈ formats ∧ row.len = n :=
  ⟨List.mem_of_find?_eq_some h, by simpa using List.find?_some h⟩

/-- What a legal row keeps to: the frame, the buffer, the code registers (R8). -/
theorem FormatRow.fits_iff {maxBits : BitCount} {row : FormatRow} : row.fits maxBits = true ↔
    (row.fs ≤ row.fe ∧ row.fe ≤ row.len ∧ row.fe - row.fs ≤ 12) ∧
      (row.cs ≤ row.ce ∧ row.ce ≤ row.len ∧ row.ce - row.cs ≤ 20) ∧ row.len ≤ maxBits.toNat := by
  simp [FormatRow.fits, and_assoc]

/-- What legal parameters keep to (R8). -/
theorem Config.legal_iff {cfg : Config} : cfg.legal = true ↔
    2 ≤ cfg.wait.toNat ∧ 35 ≤ cfg.maxBits.toNat ∧ (∀ row ∈ cfg.formats, row.fits cfg.maxBits = true) ∧
      (cfg.formats.map FormatRow.len).Nodup := by
  simp [Config.legal]

namespace Machine

/-- `BufSet` sets its own cell and leaves every other (R52). -/
theorem Channel.bufRead_bufSet (ch : Channel) (i j : Nat) :
    (ch.bufSet i).bufRead j = (ch.bufRead j || (decide (i < 127) && decide (i = j))) := by
  simp [Channel.bufRead, BitVec.getLsbD_twoPow]

/-- `BufClear` leaves every cell 0 (R52). -/
theorem Channel.bufRead_bufClear (ch : Channel) (j : Nat) : ch.bufClear.bufRead j = false := by
  simp [Channel.bufRead]

/-- No cell lies beyond the vector (R51). -/
theorem Channel.bufRead_of_ge (ch : Channel) {j : Nat} (h : 127 ≤ j) : ch.bufRead j = false := by
  simp [Channel.bufRead, BitVec.getLsbD_of_ge _ _ h]

/-- The held frame has `bitCount` bits. -/
theorem Channel.length_frame (ch : Channel) : ch.frame.length = ch.bitCount.toNat := by
  simp [Channel.frame]

/-- The bits of the held frame are the cells below `bitCount`. -/
theorem Channel.cellOf_frame (ch : Channel) {i : Nat} (h : i < ch.bitCount.toNat) :
    cellOf ch.frame i = ch.bufRead i := by
  simp [cellOf, Channel.frame, List.getD, h]

end Machine

end Sys2Proof
end

