-- ==== Sys2Proof/Laws/Operations.lean ====
section
/-!
SUPPORT. One lemma for each shared operation, which says once everything it can do; provers cite these and do not unfold
the operations.
-/
namespace Sys2Proof.Machine

/-! ### Channel operand -/

theorem State.channel?_lt {s : State} {c : Nat} {ch : Channel} (h : s.channel? c = some ch) : c < s.numReaders := by
  obtain ⟨hlt, -⟩ := List.getElem?_eq_some_iff.mp h
  exact hlt

theorem State.channel?_none {s : State} {c : Nat} : s.channel? c = none ↔ s.numReaders ≤ c := by
  simp [State.channel?, State.numReaders]

/-- Writing channel `c` of a registry: channel `c` is the new one, every other channel is as before (R51). -/
theorem State.channel?_complete_set (s : State) (c d : Nat) (ch : Channel) (o : Outputs) :
    (s.complete (s.channels.set c ch) o).channel? d =
      if c = d ∧ d < s.numReaders then some ch else s.channel? d := by
  simp only [State.channel?, State.complete_channels, State.numReaders, List.getElem?_set]
  by_cases hcd : c = d
  · subst hcd
    by_cases hlt : c < s.channels.length
    · simp [hlt]
    · simp [hlt]
  · simp [hcd]

/-- Writing an existing channel: it reads back. -/
theorem State.channel?_complete_set_self {s : State} {c : Nat} {ch : Channel} (h : s.channel? c = some ch)
    (ch' : Channel) (o : Outputs) : (s.complete (s.channels.set c ch') o).channel? c = some ch' := by
  rw [State.channel?_complete_set, if_pos ⟨rfl, State.channel?_lt h⟩]

theorem State.numReaders_complete_set (s : State) (c : Nat) (ch : Channel) (o : Outputs) :
    (s.complete (s.channels.set c ch) o).numReaders = s.numReaders := by
  simp [State.numReaders]

/-! ### Flags -/

/-- The decode condition (R130). -/
theorem Channel.finished_iff {ch : Channel} : ch.finished = true ↔ ch.bitCount ≠ 0#7 ∧ ch.frameReady = true := by
  constructor
  · intro h
    simp only [Channel.finished, Bool.and_eq_true, decide_eq_true_eq] at h
    exact ⟨by rintro e; rw [e] at h; exact absurd h.1 (by decide), h.2⟩
  · rintro ⟨h1, h2⟩
    simp only [Channel.finished, h2, Bool.and_true, decide_eq_true_eq, BitVec.lt_def]
    have : ch.bitCount.toNat ≠ 0 := fun e => h1 (BitVec.eq_of_toNat_eq e)
    simp
    omega

theorem Channel.phase_idle {ch : Channel} : ch.phase = .idle ↔ ch.bitCount = 0#7 := by
  unfold Channel.phase
  split_ifs <;> simp [*]

theorem Channel.phase_accumulating {ch : Channel} :
    ch.phase = .accumulating ↔ ch.bitCount ≠ 0#7 ∧ ch.frameReady = false := by
  unfold Channel.phase
  split_ifs <;> simp_all

/-! ### Operations on one channel -/

theorem onChannel_some {c : Nat} {s : State} {ch : Channel} (h : s.channel? c = some ch)
    (f : Channel → Channel × List DecodeEvent) :
    onChannel c s f = .next (s.complete (s.channels.set c (f ch).1) ⟨none, (f ch).2⟩) := by
  simp [onChannel, h]

theorem onChannel_none {c : Nat} {s : State} (h : s.channel? c = none)
    (f : Channel → Channel × List DecodeEvent) : onChannel c s f = .refused (.channelNotRegistered c) := by
  simp [onChannel, h]

/-- If it answers a next state, the channel exists and that state is the one given. -/
theorem onChannel_next {c : Nat} {s t : State} {f : Channel → Channel × List DecodeEvent}
    (h : onChannel c s f = .next t) :
    ∃ ch, s.channel? c = some ch ∧ t = s.complete (s.channels.set c (f ch).1) ⟨none, (f ch).2⟩ := by
  cases hc : s.channel? c with
  | none => rw [onChannel_none hc] at h; cases h
  | some ch => rw [onChannel_some hc] at h; cases h; exact ⟨ch, rfl, rfl⟩

theorem onFrame_held {c : Nat} {frame : List Bool} {s : State} {ch : Channel} (h : s.channel? c = some ch)
    (hf : ch.finished = true) (hb : ch.frame = frame) :
    onFrame c frame s = .next (s.complete (s.channels.set c (ch.classify s.config.formats).frameReset)
      ⟨none, (ch.classify s.config.formats).emit c⟩) := by
  simp [onFrame, h, hf, hb, onChannel_some h, decodeChannel, deliver]

/-- If it answers a next state, the channel held that frame, finished, and the state is the one given. -/
theorem onFrame_next {c : Nat} {frame : List Bool} {s t : State} (h : onFrame c frame s = .next t) :
    ∃ ch, s.channel? c = some ch ∧ ch.finished = true ∧ ch.frame = frame ∧
      t = s.complete (s.channels.set c (ch.classify s.config.formats).frameReset)
        ⟨none, (ch.classify s.config.formats).emit c⟩ := by
  cases hc : s.channel? c with
  | none => simp [onFrame, hc] at h
  | some ch =>
    cases hb : ch.finished && decide (ch.frame = frame) with
    | false => simp [onFrame, hc, hb] at h
    | true =>
      obtain ⟨hf, hd⟩ := Bool.and_eq_true_iff.mp hb
      have hd := of_decide_eq_true hd
      rw [onFrame_held hc hf hd] at h
      cases h
      exact ⟨ch, rfl, hf, hd, rfl⟩

/-! ### Bit capture -/

/-- `EDGE0` on its channel: every field (R110, R112, R113). -/
theorem Channel.captureZero_eq (cfg : Config) (ch : Channel) :
    ch.captureZero cfg = { ch with
      bitCount := if ch.bitCount.toNat < cfg.maxBits.toNat then ch.bitCount + 1#7 else ch.bitCount
      frameReady := false
      inactivityCounter := cfg.wait } := by
  by_cases h : ch.bitCount.toNat < cfg.maxBits.toNat
  · simp [Channel.captureZero, Channel.hasRoom, h, Channel.advance, Channel.restart]
  · simp [Channel.captureZero, Channel.hasRoom, h, Channel.restart]

/-- `EDGE1` on its channel: every field (R111, R112, R113). -/
theorem Channel.captureOne_eq (cfg : Config) (ch : Channel) :
    ch.captureOne cfg = { ch with
      bits := if ch.bitCount.toNat < cfg.maxBits.toNat then ch.bits ||| BitVec.twoPow 127 ch.bitCount.toNat else ch.bits
      bitCount := if ch.bitCount.toNat < cfg.maxBits.toNat then ch.bitCount + 1#7 else ch.bitCount
      frameReady := false
      inactivityCounter := cfg.wait } := by
  by_cases h : ch.bitCount.toNat < cfg.maxBits.toNat
  · simp [Channel.captureOne, Channel.hasRoom, h, Channel.bufSet, Channel.advance, Channel.restart]
  · simp [Channel.captureOne, Channel.hasRoom, h, Channel.restart]

/-- Below the cap the increment does not wrap (R13). -/
theorem bitCount_succ_toNat {n maxBits : BitCount} (h : n.toNat < maxBits.toNat) : (n + 1#7).toNat = n.toNat + 1 := by
  have := maxBits.isLt
  rw [BitVec.toNat_add]
  simp only [BitVec.toNat_ofNat]
  omega

/-! ### Timeout scanner -/

/-- The decrement with its floor, in numbers (R122). -/
theorem toNat_countDown (n : Countdown) : (countDown n).toNat = n.toNat - 1 := by
  unfold countDown
  split
  · rename_i h
    rw [BitVec.lt_def] at h
    have := n.isLt
    rw [BitVec.toNat_sub_of_le (by rw [BitVec.le_def]; simp at h ⊢; omega)]
    simp
  · rename_i h
    rw [BitVec.lt_def] at h
    simp at h
    simp [h]

/-- R121: a channel whose `frameReady` is 1 is skipped. -/
theorem Channel.scan_ready {ch : Channel} (h : ch.frameReady = true) : ch.scan = ch := by
  simp [Channel.scan, h]

/-- R122, R123: otherwise the counter is decremented and `frameReady` is set when it is zero then. -/
theorem Channel.scan_running {ch : Channel} (h : ch.frameReady = false) :
    ch.scan = { ch with
      inactivityCounter := countDown ch.inactivityCounter
      frameReady := decide (countDown ch.inactivityCounter = 0#12) } := by
  simp [Channel.scan, h]

/-- `SCAN` never touches the frame registers (R125 b). -/
theorem Channel.scan_frame (ch : Channel) :
    ch.scan.line0 = ch.line0 ∧ ch.scan.line1 = ch.line1 ∧ ch.scan.bits = ch.bits ∧ ch.scan.bitCount = ch.bitCount ∧
      ch.scan.facilityCode = ch.facilityCode ∧ ch.scan.cardCode = ch.cardCode ∧
      ch.scan.formatUnsupported = ch.formatUnsupported ∧ ch.scan.cbPresent = ch.cbPresent := by
  cases h : ch.frameReady with
  | true => simp [Channel.scan_ready h]
  | false => simp [Channel.scan_running h]

/-! ### Frame decoder -/

/-- Steps 1 to 3 with a matched row. -/
theorem Channel.classify_some {formats : List FormatRow} {ch : Channel} {row : FormatRow}
    (h : lookupFormat formats ch.bitCount.toNat = some row) : ch.classify formats = ch.loadRow row := by
  simp [Channel.classify, h]

/-- Steps 1 to 3 with no row. -/
theorem Channel.classify_none {formats : List FormatRow} {ch : Channel}
    (h : lookupFormat formats ch.bitCount.toNat = none) : ch.classify formats = ch.loadUnsupported := by
  simp [Channel.classify, h]

/-- What classification leaves alone, and the verdict it writes (R131, R132). -/
theorem Channel.classify_frame (formats : List FormatRow) (ch : Channel) :
    (ch.classify formats).line0 = ch.line0 ∧ (ch.classify formats).line1 = ch.line1 ∧ (ch.classify formats).bits = ch.bits ∧
      (ch.classify formats).bitCount = ch.bitCount ∧ (ch.classify formats).frameReady = ch.frameReady ∧
      (ch.classify formats).inactivityCounter = ch.inactivityCounter ∧ (ch.classify formats).cbPresent = ch.cbPresent ∧
      (ch.classify formats).formatUnsupported = verdict formats ch.bitCount.toNat := by
  cases h : lookupFormat formats ch.bitCount.toNat with
  | none => simp [Channel.classify_none h, verdict, h]
  | some row => simp [Channel.classify_some h, verdict, h]

/-- What a decode leaves of its channel: every field (R139). -/
theorem decodeChannel_fst (cfg : Config) (c : Nat) (ch : Channel) :
    (decodeChannel cfg c ch).1 = { ch with
      bits := 0#127
      bitCount := 0#7
      facilityCode := 0#12
      cardCode := 0#20
      formatUnsupported := verdict cfg.formats ch.bitCount.toNat } := by
  obtain ⟨h1, h2, -, -, h5, h6, h7, h8⟩ := ch.classify_frame cfg.formats
  have hr : (decodeChannel cfg c ch).1 = (ch.classify cfg.formats).frameReset := rfl
  rw [hr]
  simp only [Channel.frameReset, Channel.bufClear]
  rw [h1, h2, h5, h6, h7, h8]

theorem decodeChannel_snd (cfg : Config) (c : Nat) (ch : Channel) :
    (decodeChannel cfg c ch).2 = (ch.classify cfg.formats).emit c := rfl

/-- At most one event, and it carries the channel's own handle (R137). -/
theorem emit_handle {c : Nat} {ch : Channel} {e : DecodeEvent} (h : e ∈ ch.emit c) : e.handle = c := by
  unfold Channel.emit at h
  split at h
  · simp at h; subst h; rfl
  · simp at h

theorem emit_length_le (c : Nat) (ch : Channel) : (ch.emit c).length ≤ 1 := by
  unfold Channel.emit
  split <;> simp

/-! ### Polling pass -/

/-- R150: a finished frame is decoded in the pass whose `SCAN` finished it. -/
theorem pollChannel_finished {cfg : Config} {c : Nat} {ch : Channel} (h : ch.scan.finished = true) :
    pollChannel cfg c ch = decodeChannel cfg c ch.scan := by
  simp [pollChannel, h]

theorem pollChannel_unfinished {cfg : Config} {c : Nat} {ch : Channel} (h : ch.scan.finished = false) :
    pollChannel cfg c ch = (ch.scan, []) := by
  simp [pollChannel, h]

theorem length_pollFrom (cfg : Config) (c : Nat) (chs : List Channel) : (pollFrom cfg c chs).length = chs.length := by
  induction chs generalizing c with
  | nil => rfl
  | cons ch rest ih => simp [pollFrom, ih]

/-- The pass visits every channel once, under its own index (R151). -/
theorem getElem?_pollFrom (cfg : Config) (c : Nat) (chs : List Channel) (d : Nat) :
    (pollFrom cfg c chs)[d]? = chs[d]?.map (pollChannel cfg (c + d)) := by
  induction chs generalizing c d with
  | nil => simp [pollFrom]
  | cons ch rest ih =>
    cases d with
    | zero => simp [pollFrom]
    | succ d =>
      simp only [pollFrom, List.getElem?_cons_succ, ih]
      have : c + 1 + d = c + (d + 1) := by omega
      rw [this]

/-- Every event of one channel's part carries that channel's handle. -/
theorem pollChannel_handle {cfg : Config} {c : Nat} {ch : Channel} {e : DecodeEvent} (h : e ∈ (pollChannel cfg c ch).2) :
    e.handle = c := by
  cases hf : ch.scan.finished with
  | true => rw [pollChannel_finished hf, decodeChannel_snd] at h; exact emit_handle h
  | false => rw [pollChannel_unfinished hf] at h; simp at h

/-- `POLL` always answers, and this is its answer. -/
theorem exec_poll (s : State) :
    exec .poll s = .next (s.complete ((pollFrom s.config 0 s.channels).map Prod.fst)
      ⟨none, (pollFrom s.config 0 s.channels).flatMap Prod.snd⟩) := rfl

/-- What `POLL` leaves of channel `d`. -/
theorem exec_poll_channel? {s t : State} (h : exec .poll s = .next t) (d : Nat) :
    t.channel? d = (s.channel? d).map fun ch => (pollChannel s.config d ch).1 := by
  rw [exec_poll] at h
  cases h
  simp only [State.channel?, State.complete_channels, List.getElem?_map, getElem?_pollFrom, Option.map_map]
  have : 0 + d = d := by omega
  rw [this]
  rfl

/-- An event of the pass is an event of one channel's part of it. -/
theorem mem_pollFrom_events {cfg : Config} {c : Nat} {chs : List Channel} {e : DecodeEvent}
    (h : e ∈ (pollFrom cfg c chs).flatMap Prod.snd) : ∃ d ch, chs[d]? = some ch ∧ e ∈ (pollChannel cfg (c + d) ch).2 := by
  obtain ⟨p, hp, he⟩ := List.mem_flatMap.mp h
  obtain ⟨d, hd⟩ := List.mem_iff_getElem?.mp hp
  rw [getElem?_pollFrom] at hd
  cases hch : chs[d]? with
  | none => simp [hch] at hd
  | some ch =>
    simp only [hch, Option.map_some, Option.some.injEq] at hd
    subst hd
    exact ⟨d, ch, hch, he⟩

/-- The events of channel `a + c` in the pass from `a` on are those of its own part. -/
theorem eventsOf_pollFrom (cfg : Config) (c a : Nat) (chs : List Channel) :
    eventsOf (a + c) ((pollFrom cfg a chs).flatMap Prod.snd) =
      match chs[c]? with
      | some ch => (pollChannel cfg (a + c) ch).2
      | none => [] := by
  induction chs generalizing a c with
  | nil => simp [pollFrom, eventsOf]
  | cons ch rest ih =>
    simp only [pollFrom, List.flatMap_cons, eventsOf, List.filter_append]
    cases c with
    | zero =>
      have h1 : (pollChannel cfg a ch).2.filter (fun e => e.handle == a + 0) = (pollChannel cfg a ch).2 := by
        rw [List.filter_eq_self]
        intro e he
        simp [pollChannel_handle he]
      have h2 : ((pollFrom cfg (a + 1) rest).flatMap Prod.snd).filter (fun e => e.handle == a + 0) = [] := by
        rw [List.filter_eq_nil_iff]
        intro e he
        obtain ⟨d, ch2, -, h3⟩ := mem_pollFrom_events he
        simp [pollChannel_handle h3]
        omega
      rw [h1, h2]
      simp
    | succ c =>
      have h1 : (pollChannel cfg a ch).2.filter (fun e => e.handle == a + (c + 1)) = [] := by
        rw [List.filter_eq_nil_iff]
        intro e he
        simp [pollChannel_handle he]
      have h2 := ih c (a + 1)
      have e : a + 1 + c = a + (c + 1) := by omega
      rw [e] at h2
      simp only [eventsOf] at h2
      rw [h1, h2]
      simp

/-- The events a `POLL` emits for a registered channel. -/
theorem exec_poll_eventsOf {s t : State} {c : Nat} {ch : Channel} (h : exec .poll s = .next t)
    (hc : s.channel? c = some ch) : eventsOf c t.outputs.events = (pollChannel s.config c ch).2 := by
  rw [exec_poll] at h
  cases h
  have h0 := eventsOf_pollFrom s.config c 0 s.channels
  simp only [Nat.zero_add] at h0
  rw [State.complete_outputs, h0]
  simp only [State.channel?] at hc
  rw [hc]

/-! ### Registration -/

/-- What `REG` can answer (R105, R101). -/
theorem execReg_cases (l0 l1 : LineId) (cb : Bool) (s : State) :
    (s.capacityExceeded = true ∧ execReg l0 l1 cb s = .next (s.withOutputs ⟨some .capacityExceeded, []⟩)) ∨
    (s.capacityExceeded = false ∧ s.physicallyFull = true ∧ execReg l0 l1 cb s = .refused .beyondPhysicalChannels) ∨
    (s.capacityExceeded = false ∧ s.physicallyFull = false ∧
      execReg l0 l1 cb s = .next (s.complete (s.channels ++ [Channel.registered s.config l0 l1 cb])
        ⟨some (.ok s.numReaders), []⟩)) := by
  cases h1 : s.capacityExceeded with
  | true => exact .inl ⟨rfl, by simp [execReg, h1, State.complete, State.withChannels, State.withOutputs]⟩
  | false =>
    cases h2 : s.physicallyFull with
    | true => exact .inr (.inl ⟨rfl, rfl, by simp [execReg, h1, h2]⟩)
    | false => exact .inr (.inr ⟨rfl, rfl, by simp [execReg, h1, h2]⟩)

/-! ### Ports -/

/-- One step takes the first sample (R213). -/
theorem step_cons {s : State} {x : PortSample} {rest : List PortSample} (h : s.inputs = x :: rest) :
    step s = if x.rst then .next (s.withInputs rest).powerOn else exec (decodeOp x.word) (s.withInputs rest) := by
  simp [step, State.fetch, h]

/-- With no sample to come the machine idles (R156). -/
theorem step_nil {s : State} (h : s.inputs = []) : step s = .next s.idle := by
  simp [step, State.fetch, h]

end Sys2Proof.Machine
end

