-- ==== Sys2Proof/Laws/Inversion.lean ====
section
/-!
SUPPORT. What an operation can do, said once: if `exec` answers a next state, one of these cases holds. Invariants and frames
cite this and do not unfold `exec`.
-/
namespace Sys2Proof.Machine

/-- What an operation addressed to channel `c` makes of that channel, and the events it emits. -/
inductive ChannelStep (cfg : Config) (c : Nat) (ch : Channel) : Instr → Channel → List DecodeEvent → Prop where
  | edge0 : ChannelStep cfg c ch (.edge0 c) (ch.captureZero cfg) []
  | edge1 : ChannelStep cfg c ch (.edge1 c) (ch.captureOne cfg) []
  | scan : ChannelStep cfg c ch (.scan c) ch.scan []
  | decode : ch.finished = true →
      ChannelStep cfg c ch (.decode c) (ch.classify cfg.formats).frameReset ((ch.classify cfg.formats).emit c)
  | frame (i : Instr) : ch.finished = true → encode i = some (.frame c ch.frame) →
      ChannelStep cfg c ch i (ch.classify cfg.formats).frameReset ((ch.classify cfg.formats).emit c)

/-- The length of a frame of each format. -/
theorem length_corp1000Bits (x : BitVec 3) (f : BitVec 12) (k : BitVec 20) : (corp1000Bits x f k).length = 35 := by
  simp [corp1000Bits, length_fieldBits]

theorem length_w26Bits (x : BitVec 2) (f : BitVec 8) (k : BitVec 16) : (w26Bits x f k).length = 26 := by
  simp [w26Bits, length_fieldBits]

theorem length_w32Bits (x : BitVec 4) (f : BitVec 12) (k : BitVec 16) : (w32Bits x f k).length = 32 := by
  simp [w32Bits, length_fieldBits]

/-- If an operation answers a next state, one of these cases holds. -/
theorem exec_next {i : Instr} {s t : State} (h : exec i s = .next t) :
    (i = .nop ∧ t = s.withOutputs Outputs.none) ∨
    (i = .poll ∧ t = s.complete ((pollFrom s.config 0 s.channels).map Prod.fst)
      ⟨none, (pollFrom s.config 0 s.channels).flatMap Prod.snd⟩) ∨
    (∃ l0 l1 cb, i = .reg l0 l1 cb ∧
      ((s.capacityExceeded = true ∧ t = s.withOutputs ⟨some .capacityExceeded, []⟩) ∨
       (s.capacityExceeded = false ∧ s.physicallyFull = false ∧
        t = s.complete (s.channels ++ [Channel.registered s.config l0 l1 cb]) ⟨some (.ok s.numReaders), []⟩))) ∨
    (∃ c ch ch' es, addressee i = some c ∧ s.channel? c = some ch ∧ ChannelStep s.config c ch i ch' es ∧
      t = s.complete (s.channels.set c ch') ⟨none, es⟩) := by
  have frameCase : ∀ {c : Nat} {frame : List Bool}, addressee i = some c → encode i = some (.frame c frame) →
      onFrame c frame s = .next t →
      ∃ c ch ch' es, addressee i = some c ∧ s.channel? c = some ch ∧ ChannelStep s.config c ch i ch' es ∧
        t = s.complete (s.channels.set c ch') ⟨none, es⟩ := by
    intro c frame ha he ho
    obtain ⟨ch, hc, hf, hb, rfl⟩ := onFrame_next ho
    exact ⟨c, ch, _, _, ha, hc, .frame i hf (by rw [hb]; exact he), rfl⟩
  cases i with
  | nop => exact .inl ⟨rfl, (Host.Outcome.next.inj h).symm⟩
  | poll => exact .inr (.inl ⟨rfl, (Host.Outcome.next.inj h).symm⟩)
  | reg l0 l1 cb =>
    refine .inr (.inr (.inl ⟨l0, l1, cb, rfl, ?_⟩))
    have h : execReg l0 l1 cb s = .next t := h
    rcases execReg_cases l0 l1 cb s with ⟨h1, h2⟩ | ⟨-, -, h3⟩ | ⟨h1, h2, h3⟩
    · rw [h2] at h; exact .inl ⟨h1, (Host.Outcome.next.inj h).symm⟩
    · rw [h3] at h; cases h
    · rw [h3] at h; exact .inr ⟨h1, h2, (Host.Outcome.next.inj h).symm⟩
  | edge0 c =>
    obtain ⟨ch, hc, rfl⟩ := onChannel_next h
    exact .inr (.inr (.inr ⟨c, ch, _, _, rfl, hc, .edge0, rfl⟩))
  | edge1 c =>
    obtain ⟨ch, hc, rfl⟩ := onChannel_next h
    exact .inr (.inr (.inr ⟨c, ch, _, _, rfl, hc, .edge1, rfl⟩))
  | scan c =>
    obtain ⟨ch, hc, rfl⟩ := onChannel_next h
    exact .inr (.inr (.inr ⟨c, ch, _, _, rfl, hc, .scan, rfl⟩))
  | decode c =>
    have h : execDecode c s = .next t := h
    cases hc : s.channel? c with
    | none => simp [execDecode, hc] at h
    | some ch =>
      cases hf : ch.finished with
      | false => simp [execDecode, hc, hf] at h
      | true =>
        simp only [execDecode, hc, hf, if_true, onChannel_some hc] at h
        exact .inr (.inr (.inr ⟨c, ch, _, _, rfl, hc, .decode hf, (Host.Outcome.next.inj h).symm⟩))
  | corp1000 c x f k => exact .inr (.inr (.inr (frameCase rfl rfl h)))
  | w26 c x f k => exact .inr (.inr (.inr (frameCase rfl rfl h)))
  | w32 c x f k => exact .inr (.inr (.inr (frameCase rfl rfl h)))
  | unsupported c frame => exact .inr (.inr (.inr (frameCase rfl rfl h)))
  | reserved5 => cases h
  | reserved6 => cases h
  | reserved7 => cases h

/-- No operation on a channel touches its lines or its handler bit, and its events carry its handle (R23, R28, R171). -/
theorem ChannelStep.identity {cfg : Config} {c : Nat} {ch ch' : Channel} {i : Instr} {es : List DecodeEvent}
    (h : ChannelStep cfg c ch i ch' es) :
    ch'.line0 = ch.line0 ∧ ch'.line1 = ch.line1 ∧ ch'.cbPresent = ch.cbPresent ∧ ∀ e ∈ es, e.handle = c := by
  have hd : ∀ d : Channel, d.line0 = ch.line0 → d.line1 = ch.line1 → d.cbPresent = ch.cbPresent →
      d.frameReset.line0 = ch.line0 ∧ d.frameReset.line1 = ch.line1 ∧ d.frameReset.cbPresent = ch.cbPresent ∧
      ∀ e ∈ d.emit c, e.handle = c := fun d h0 h1 h2 => ⟨h0, h1, h2, fun e he => emit_handle he⟩
  obtain ⟨k0, k1, -, -, -, -, k2, -⟩ := ch.classify_frame cfg.formats
  obtain ⟨s0, s1, -, -, -, -, -, s2⟩ := ch.scan_frame
  cases h with
  | edge0 => rw [Channel.captureZero_eq]; exact ⟨rfl, rfl, rfl, by simp⟩
  | edge1 => rw [Channel.captureOne_eq]; exact ⟨rfl, rfl, rfl, by simp⟩
  | scan => exact ⟨s0, s1, s2, by simp⟩
  | decode _ => exact hd _ k0 k1 k2
  | frame _ _ _ => exact hd _ k0 k1 k2

end Sys2Proof.Machine
end

