-- ==== Sys2Proof/Laws/PerInstr.lean ====
section
/-!
SUPPORT. The family `EncodingForm`: what encoding each row of the table has (R81): a frame row a bit string of the row's
length on its channel, an operation row a 3-bit code, a micro-operation none.
-/
namespace Sys2Proof.Laws.EncodingForm

/-- The encoding is the row's. -/
def Statement : Instr → Prop
  | .corp1000 ch x f k => ∃ bits, encode (.corp1000 ch x f k) = some (.frame ch bits) ∧ bits.length = 35
  | .w26 ch x f k => ∃ bits, encode (.w26 ch x f k) = some (.frame ch bits) ∧ bits.length = 26
  | .w32 ch x f k => ∃ bits, encode (.w32 ch x f k) = some (.frame ch bits) ∧ bits.length = 32
  | .unsupported ch frame => encode (.unsupported ch frame) = some (.frame ch frame)
  | .nop => ∃ w, encode .nop = some (.op w) ∧ w.op = 0#3
  | .edge0 c => ∃ w, encode (.edge0 c) = some (.op w) ∧ w.op = 1#3 ∧ w.ch = c
  | .edge1 c => ∃ w, encode (.edge1 c) = some (.op w) ∧ w.op = 2#3 ∧ w.ch = c
  | .poll => ∃ w, encode .poll = some (.op w) ∧ w.op = 3#3
  | .reg l0 l1 cb => ∃ w, encode (.reg l0 l1 cb) = some (.op w) ∧ w.op = 4#3 ∧ w.regLine0 = l0 ∧ w.regLine1 = l1 ∧
      w.regCb = cb
  | .reserved5 => ∃ w, encode .reserved5 = some (.op w) ∧ w.op = 5#3
  | .reserved6 => ∃ w, encode .reserved6 = some (.op w) ∧ w.op = 6#3
  | .reserved7 => ∃ w, encode .reserved7 = some (.op w) ∧ w.op = 7#3
  | .scan c => encode (.scan c) = none
  | .decode c => encode (.decode c) = none

theorem corp1000 (ch : Nat) (x : BitVec 3) (f : BitVec 12) (k : BitVec 20) : Statement (.corp1000 ch x f k) :=
  ⟨corp1000Bits x f k, rfl, by simp [corp1000Bits, length_fieldBits]⟩
theorem w26 (ch : Nat) (x : BitVec 2) (f : BitVec 8) (k : BitVec 16) : Statement (.w26 ch x f k) :=
  ⟨w26Bits x f k, rfl, by simp [w26Bits, length_fieldBits]⟩
theorem w32 (ch : Nat) (x : BitVec 4) (f : BitVec 12) (k : BitVec 16) : Statement (.w32 ch x f k) :=
  ⟨w32Bits x f k, rfl, by simp [w32Bits, length_fieldBits]⟩
theorem unsupported (ch : Nat) (frame : List Bool) : Statement (.unsupported ch frame) := rfl
theorem nop : Statement .nop := ⟨_, rfl, rfl⟩
theorem edge0 (c : Nat) : Statement (.edge0 c) := ⟨_, rfl, rfl, rfl⟩
theorem edge1 (c : Nat) : Statement (.edge1 c) := ⟨_, rfl, rfl, rfl⟩
theorem poll : Statement .poll := ⟨_, rfl, rfl⟩
theorem reg (l0 l1 : LineId) (cb : Bool) : Statement (.reg l0 l1 cb) := ⟨_, rfl, rfl, rfl, rfl, rfl⟩
theorem reserved5 : Statement .reserved5 := ⟨_, rfl, rfl⟩
theorem reserved6 : Statement .reserved6 := ⟨_, rfl, rfl⟩
theorem reserved7 : Statement .reserved7 := ⟨_, rfl, rfl⟩
theorem scan (c : Nat) : Statement (.scan c) := rfl
theorem decode (c : Nat) : Statement (.decode c) := rfl

end Sys2Proof.Laws.EncodingForm
end

