-- ==== Sys2Proof/Tests/Slice0.lean ====
section
/-!
SUPPORT. The model's own tests. Every expected value is the spec's: S, T and P are vectors of spec/95_test_vectors.md, R a
numbered rule; a frame is written as the spec's hexadecimal number, index 0 the most significant digit (R9). After them, for
each statement with hypotheses, a witness that meets them, clause by clause.
-/
namespace Sys2Proof.Machine.Tests

/-! ### Helpers -/

/-- The spec's number for a frame of `n` bits (R9). -/
def bitsOf (n w : Nat) : List Bool := (List.range n).map fun i => w.testBit (n - 1 - i)

/-- A channel written `(bitCount, frameReady, inactivityCounter, formatUnsupported)`, lines 2 and 3, with a handler. -/
def chan (bc : Nat) (fr : Bool) (ic : Nat) (fu : Bool) : Channel :=
  { Channel.registered State.reset.config 2 3 true with
    bitCount := BitVec.ofNat 7 bc, frameReady := fr, inactivityCounter := BitVec.ofNat 12 ic, formatUnsupported := fu }

/-- A channel that holds a frame, with the given flag and countdown. -/
def holds (frame : List Bool) (fr : Bool) (ic : Nat) : Channel :=
  { (chan 0 false 0 false).holding frame with frameReady := fr, inactivityCounter := BitVec.ofNat 12 ic }

def chans (cs : List Channel) : State := State.reset.withChannels cs

def capped (cap : Fin 4) (cs : List Channel) : State := { chans cs with config := { State.reset.config with cap := cap } }

/-- A realisation of one channel (R6). -/
def onePhysical : Config := { State.reset.config with physicalChannels := some 1 }

def after (o : Host.Outcome State Fault Refusal) (p : State → Bool) : Bool :=
  match o with
  | .next t => p t
  | .fault _ => false
  | .refused _ => false

def refusedAs (o : Host.Outcome State Fault Refusal) (r : Refusal) : Bool :=
  match o with
  | .next _ => false
  | .fault _ => false
  | .refused r' => decide (r' = r)

def status (c : Nat) (t : State) : Option (Nat × Bool × Nat × Bool) :=
  (t.channel? c).map fun ch =>
    (ch.bitCount.toNat, ch.frameReady, ch.inactivityCounter.toNat, ch.formatUnsupported)

/-- Events written `EV(handle, length, facility, card, unsupported)`. -/
def evs (t : State) : List (Nat × Nat × Nat × Nat × Bool) :=
  t.outputs.events.map fun e => (e.handle, e.length.toNat, e.facilityCode.toNat, e.cardCode.toNat, e.unsupported)

/-- The channel's status and the events after an operation. -/
def shows (o : Host.Outcome State Fault Refusal) (c : Nat) (st : Nat × Bool × Nat × Bool)
    (es : List (Nat × Nat × Nat × Nat × Bool)) : Bool :=
  after o fun t => decide (status c t = some st ∧ evs t = es)

theorem exists_of_after {o : Host.Outcome State Fault Refusal} {p : State → Bool} (h : after o p = true) :
    ∃ t, o = .next t ∧ p t = true := by
  cases o with
  | next t => exact ⟨t, rfl, h⟩
  | fault f => cases f
  | refused r => simp [after] at h

/-! ### Well-formedness: ill-formed terms are refused -/

theorem test_wf_empty_frame : (Instr.unsupported 0 []).wellFormed = false := by decide
theorem test_wf_frame_of_101 : (Instr.unsupported 0 (List.replicate 101 true)).wellFormed = false := by decide
theorem test_wf_frame_of_26 : (Instr.unsupported 0 (List.replicate 26 true)).wellFormed = false := by decide
theorem test_wf_frame_of_32 : (Instr.unsupported 0 (List.replicate 32 true)).wellFormed = false := by decide
theorem test_wf_frame_of_35 : (Instr.unsupported 0 (List.replicate 35 true)).wellFormed = false := by decide
theorem test_wf_frame_of_100 : (Instr.unsupported 0 (List.replicate 100 true)).wellFormed = true := by decide

/-! ### Legal parameters (R8) -/

theorem test_legal_defaults : State.reset.config.legal = true := by decide
theorem test_illegal_wait : ({ State.reset.config with wait := 1#12 } : Config).legal = false := by decide
theorem test_illegal_maxBits : ({ State.reset.config with maxBits := 34#7, formats := [] } : Config).legal = false := by
  decide
theorem test_illegal_row_beyond_buffer : ({ State.reset.config with formats := [⟨.w26, 101, 1, 9, 9, 25⟩] } : Config).legal =
    false := by decide
theorem test_illegal_equal_lengths : ({ State.reset.config with formats := [rowW26, rowW26] } : Config).legal = false := by
  decide

/-- R112, R113 and R131 with parameters other than the defaults: 36 cells, a window of 5 polls, one row. -/
theorem test_parameters :
    after (exec (.edge1 0) { chans [chan 36 false 2 false] with
      config := { State.reset.config with maxBits := 36#7, wait := 5#12 } })
      (fun t => decide (status 0 t = some (36, false, 5, false))) = true ∧
    after (exec (.decode 0) { chans [holds (bitsOf 4 0b0110) true 0] with
      config := { State.reset.config with formats := [⟨.w26, 4, 0, 2, 1, 4⟩] } })
      (fun t => decide (evs t = [(0, 4, 1, 6, false)])) = true := by decide

/-! ### Decoding: a word of each constructor that has an encoding -/

/-- T16, R133: facility 0xABC, card 0x12345; uninterpreted cells 0, 1, 34 all 1. -/
theorem test_decode_corp1000_T16 :
    decode (.frame 0 (bitsOf 35 0x75782468B)) = .ok (.corp1000 0 0b111#3 0xABC#12 0x12345#20) := by decide

/-- T3, R134: facility 0xAB, card 0xCDEF; uninterpreted cells 0, 25 both 1. -/
theorem test_decode_w26_T3 : decode (.frame 0 (bitsOf 26 0x3579BDF)) = .ok (.w26 0 0b11#2 0xAB#8 0xCDEF#16) := by decide

/-- T4: facility 123, card 45678; only the last uninterpreted cell is 1. -/
theorem test_decode_w26_T4 : decode (.frame 0 (bitsOf 26 0x0F764DD)) = .ok (.w26 0 0b10#2 123#8 45678#16) := by decide

/-- T11, R135: facility 0xABC, card 0x1234; cells 0 to 3 are 1, 0, 1, 0. -/
theorem test_decode_w32_T11 :
    decode (.frame 0 (bitsOf 32 0xAABC1234)) = .ok (.w32 0 0b0101#4 0xABC#12 0x1234#16) := by decide

/-- S2, T23: 27 ones. -/
theorem test_decode_unsupported_S2 :
    decode (.frame 0 (bitsOf 27 0x7FFFFFF)) = .ok (.unsupported 0 (List.replicate 27 true)) := by decide

theorem test_decode_length_0 : decode (.frame 0 []) = .error .emptyFrame := by decide
theorem test_decode_length_101 : decode (.frame 0 (List.replicate 101 false)) = .error .overlongFrame := by decide

/-- The codes of R89, as the opcode table's words. -/
theorem test_decode_nop : decodeTableWord 8 0x0 = some .nop := by decide
theorem test_decode_edge0 : decodeTableWord 8 0x1 = some (.edge0 0) := by decide
theorem test_decode_edge1 : decodeTableWord 8 0x2 = some (.edge1 0) := by decide
theorem test_decode_poll : decodeTableWord 8 0x3 = some .poll := by decide
theorem test_decode_reg : decodeTableWord 8 0x4 = some (.reg 0 0 false) := by decide
theorem test_decode_reserved5 : decodeTableWord 8 0x5 = some .reserved5 := by decide
theorem test_decode_reserved6 : decodeTableWord 8 0x6 = some .reserved6 := by decide
theorem test_decode_reserved7 : decodeTableWord 8 0x7 = some .reserved7 := by decide
theorem test_decode_no_such_code : decodeTableWord 8 0x8 = none := by decide

/-- The operands travel beside the code (R89): `E1.5`, `REG(18,19,1)`. -/
theorem test_decode_operands :
    decode (.op { plainWord 2#3 with ch := 5 }) = .ok (.edge1 5) ∧
    decode (.op ⟨4#3, 0, 18, 19, true⟩) = .ok (.reg 18 19 true) := by decide

/-- T60, T61, T62, S9: field assembly. -/
theorem test_extract :
    extract (cellOf (bitsOf 8 0b00001011)) 4 8 = 11 ∧ extract (cellOf (bitsOf 8 0xFF)) 9 9 = 0 ∧
    extract (fun _ => true) 14 34 = 1048575 := by decide

/-! ### `REG` -/

/-- T50 and R108: `Ok(0)`, channel 0 at `(0,0,3000,0)` with its operands. -/
theorem test_reg_T50 : after (exec (.reg 2 3 true) (capped 1 [])) (fun t =>
    decide (t.regHandle = some 0 ∧ t.channel? 0 = some (chan 0 false 3000 false))) = true := by decide

/-- T51: `CapacityExceeded`, nothing changes. -/
theorem test_reg_T51 : after (exec (.reg 18 19 true) (capped 1 [chan 5 false 77 true])) (fun t =>
    decide (t.regErr = true ∧ t.channels = [chan 5 false 77 true])) = true := by decide

/-! ### `EDGE0`, `EDGE1` -/

/-- T43, S5: the countdown restarts at its last tick. -/
theorem test_edge0_T43 : shows (exec (.edge0 0) (chans [chan 13 false 1 false])) 0 (14, false, 3000, false) [] = true := by
  decide

/-- T46: capped, the countdown still restarted (R113). -/
theorem test_edge0_T46 :
    shows (exec (.edge0 0) (chans [chan 100 false 1234 false])) 0 (100, false, 3000, false) [] = true := by decide

/-- T44: the last cell is written, and no other. -/
theorem test_edge1_T44 : after (exec (.edge1 0) (chans [chan 99 false 1234 false])) (fun t =>
    decide (status 0 t = some (100, false, 3000, false)) &&
      (t.channel? 0).any fun ch => decide (ch.bits = BitVec.twoPow 127 99)) = true := by decide

/-- T45: capped, the buffer unchanged, the countdown still restarted. -/
theorem test_edge1_T45 : after (exec (.edge1 0) (chans [chan 100 false 1234 false])) (fun t =>
    decide (status 0 t = some (100, false, 3000, false)) &&
      (t.channel? 0).any fun ch => decide (ch.bits = 0#127)) = true := by decide

/-! ### `SCAN`, `DECODE`, the frame kinds -/

/-- R126 (b): one tick from timeout. -/
theorem test_scan_last_tick : shows (exec (.scan 0) (chans [chan 5 false 1 false])) 0 (5, true, 0, false) [] = true := by
  decide

/-- T37: `frameReady` already 1, the counter untouched. -/
theorem test_scan_skips : shows (exec (.scan 0) (chans [chan 0 true 7 false])) 0 (0, true, 7, false) [] = true := by decide

/-- R141 (c), D4: a supported frame clears the verdict of the one before it. -/
theorem test_decode_clears_verdict :
    shows (exec (.decode 0) (chans [{ holds (bitsOf 26 0x3579BDF) true 0 with formatUnsupported := true }])) 0
      (0, true, 0, false) [(0, 26, 171, 52719, false)] = true := by decide

/-- T70: no handler, decoded and reset silently. -/
theorem test_decode_T70 :
    shows (exec (.decode 0) (chans [{ holds (bitsOf 26 0x0F764DD) true 0 with cbPresent := false }])) 0
      (0, true, 0, false) [] = true := by decide

/-- T16, on channel 1. -/
theorem test_corp1000_T16 :
    shows (exec (.corp1000 1 7#3 0xABC#12 0x12345#20) (chans [chan 0 true 0 false, holds (bitsOf 35 0x75782468B) true 0])) 1
      (0, true, 0, false) [(1, 35, 2748, 74565, false)] = true := by decide

/-- T2: the most significant bit of each field. -/
theorem test_w26_T2 : shows (exec (.w26 0 0#2 128#8 32768#16) (chans [holds (bitsOf 26 0x1010000) true 0])) 0
    (0, true, 0, false) [(0, 26, 128, 32768, false)] = true := by decide

/-- T10: indices 4 and 16. -/
theorem test_w32_T10 : shows (exec (.w32 0 0#4 2048#12 32768#16) (chans [holds (bitsOf 32 0x08008000) true 0])) 0
    (0, true, 0, false) [(0, 32, 2048, 32768, false)] = true := by decide

set_option maxRecDepth 4000 in
/-- T28: a full buffer, length 100. -/
theorem test_unsupported_T28 :
    shows (exec (.unsupported 0 (List.replicate 100 true)) (chans [holds (List.replicate 100 true) true 0])) 0
      (0, true, 0, true) [(0, 100, 0, 0, true)] = true := by decide

/-! ### `POLL`, `NOP`, reserved codes, ports -/

/-- R158 and T35: two frames finished in one `POLL`, in ascending channel index, a third channel one tick on. -/
theorem test_poll_R158 : after (exec .poll (chans
      [holds (bitsOf 26 0x3579BDF) false 1, chan 5 false 3000 false, holds (bitsOf 5 0) false 1])) (fun t =>
    decide (evs t = [(0, 26, 171, 52719, false), (2, 5, 0, 0, true)] ∧
      (List.range 3).map (fun c => status c t) =
        [some (0, true, 0, false), some (5, false, 2999, false), some (0, true, 0, true)])) = true := by decide

/-- T36, T38, unreachable states: the floor at zero; `SCAN` skips and `DECODE` runs. -/
theorem test_poll_T36_T38 :
    shows (exec .poll (chans [chan 0 false 0 false])) 0 (0, true, 0, false) [] = true ∧
    shows (exec .poll (chans [holds (bitsOf 26 0x3579BDF) true 0])) 0 (0, true, 0, false) [(0, 26, 171, 52719, false)] =
      true := by decide

theorem test_nop : shows (exec .nop (chans [chan 5 false 77 true])) 0 (5, false, 77, true) [] = true := by decide
theorem test_reserved5 : refusedAs (exec .reserved5 State.reset) (.reservedCode 5#3) = true := by decide
theorem test_reserved6 : refusedAs (exec .reserved6 State.reset) (.reservedCode 6#3) = true := by decide
theorem test_reserved7 : refusedAs (exec .reserved7 State.reset) (.reservedCode 7#3) = true := by decide

/-- R213: `rst` overrides `op` and empties the registry. -/
theorem test_rst : after (step { chans [chan 5 false 77 true] with inputs := [⟨true, plainWord 3#3⟩] })
    (fun t => decide (t.channels = [] ∧ t.inputs = [])) = true := by decide

/-- A frame word of the table, placed after reset: the next step decodes it (T16's first and last cells, index 0 = bit 0). -/
theorem test_place_frame :
    after (step (State.reset.withFetchWord 40 0x400000001)) (fun t => decide (evs t = [(0, 35, 0, 0, false)])) = true := by
  decide

/-- A code word of the table, placed after reset. -/
theorem test_place_edge1 :
    after (step (State.reset.withFetchWord 8 2)) (fun t => decide (status 0 t = some (1, false, 3000, false))) = true := by
  decide

/-! ### Witnesses: concrete states and operands that meet the hypotheses of the statements -/

theorem witness_PowerOnAndRstLeaveNoChannel :
    ({ chans [chan 5 false 77 true] with inputs := [⟨true, plainWord 3#3⟩] } : State).inputs =
      ⟨true, plainWord 3#3⟩ :: [] := by decide

theorem witness_StepPerformsTheDecodedOperation :
    (({ chans [] with inputs := [⟨false, plainWord 3#3⟩] } : State).inputs = ⟨false, plainWord 3#3⟩ :: [] ∧
      decode (.op (plainWord 3#3)) = .ok .poll) ∧ (chans [chan 1 false 1 false]).inputs = [] := by decide

theorem witness_DecodeOfEncodeIsTheOperation :
    (Instr.unsupported 3 [true]).wellFormed = true ∧ encode (.unsupported 3 [true]) = some (.frame 3 [true]) ∧
    (Instr.edge1 3).wellFormed = true ∧ encode (.edge1 3) = some (.op ⟨2#3, 3, 0, 0, false⟩) ∧
    encode (.scan 3) = none ∧ encode (.decode 3) = none := by decide

theorem witness_EncodeOfDecodedFrameIsTheFrame :
    decode (.frame 0 [false]) = .ok (.unsupported 0 [false]) ∧
    decode (.frame 0 (List.replicate 100 false)) = .ok (.unsupported 0 (List.replicate 100 false)) := by decide

theorem witness_OperationsOnUnissuedChannelsAreRefused :
    addressee (.edge0 1) = some 1 ∧ (chans [chan 0 false 1 false]).numReaders ≤ 1 ∧
    addressee (.scan 0) = some 0 ∧ State.reset.numReaders ≤ 0 := by decide

/-- Each way of being outside the entry condition: no bits, not ready, another frame. -/
theorem witness_DecodeOutsideItsEntryConditionIsRefused :
    ((chans [chan 0 true 0 false]).channel? 0 = some (chan 0 true 0 false) ∧ (chan 0 true 0 false).bitCount = 0#7) ∧
    ((chans [chan 1 false 9 false]).channel? 0 = some (chan 1 false 9 false) ∧ (chan 1 false 9 false).frameReady = false) ∧
    ((chans [chan 1 true 0 false]).channel? 0 = some (chan 1 true 0 false) ∧ (chan 1 true 0 false).frame ≠ [true] ∧
      encode (.unsupported 0 [true]) = some (.frame 0 [true])) := by decide

/-- Both sides of the condition. -/
theorem witness_OperationsCompleteExactlyWhenAccepted :
    accepts (.edge0 0) (chans [chan 0 false 9 false]) = true ∧ accepts (.edge0 1) (chans [chan 0 false 9 false]) = false ∧
    accepts (.w26 0 3#2 0xAB#8 0xCDEF#16) (chans [holds (bitsOf 26 0x3579BDF) true 0]) = true ∧
    accepts (.reg 0 0 false) (capped 1 [chan 0 false 9 false]) = true := by decide

/-- No bound, a cap not reached, the last channel of a physical realisation. -/
theorem witness_RegCreatesTheNextChannel :
    (State.reset.config.cap = 0 ∧ State.reset.config.physicalChannels = none) ∧
    ((capped 3 [chan 0 true 0 false, chan 0 true 0 false]).numReaders ≠ (capped 3 []).config.cap.val ∧
      (capped 3 []).config.cap ≠ 0) ∧
    (({ State.reset with config := onePhysical } : State).config.cap = 0 ∧
      ∀ n, ({ State.reset with config := onePhysical } : State).config.physicalChannels = some n →
        ({ State.reset with config := onePhysical } : State).numReaders < n) := by
  refine ⟨by decide, by decide, by decide, ?_⟩
  intro n h
  cases h
  decide

theorem witness_CapacityExceededChangesNoState :
    ((capped 1 [chan 5 false 77 true]).config.cap ≠ 0 ∧
      (capped 1 [chan 5 false 77 true]).numReaders = (capped 1 []).config.cap.val) ∧
    ∃ t, exec (.reg 2 3 true) (capped 1 [chan 5 false 77 true]) = .next t ∧ t.regErr = true :=
  ⟨by decide, exists_of_after (by decide)⟩

theorem witness_RegBeyondPhysicalChannelsIsRefused :
    ({ chans [chan 0 true 0 false] with config := onePhysical } : State).config.cap = 0 ∧
    ({ chans [chan 0 true 0 false] with config := onePhysical } : State).config.physicalChannels = some 1 ∧
    1 ≤ ({ chans [chan 0 true 0 false] with config := onePhysical } : State).numReaders := by decide

/-- T53: a registration while channel 0 is mid-frame. -/
theorem witness_RegDuringOperationJoinsTheNextPoll :
    (capped 3 [chan 7 false 2500 false, chan 0 true 0 false]).config.legal = true ∧
    ∃ t, exec (.reg 6 7 true) (capped 3 [chan 7 false 2500 false, chan 0 true 0 false]) = .next t ∧
      decide (t.outputs.regResult =
        some (.ok (capped 3 [chan 7 false 2500 false, chan 0 true 0 false]).numReaders)) = true :=
  ⟨by decide, exists_of_after (by decide)⟩

/-- The first bit, the last cell, a full buffer. -/
theorem witness_Edge0AppendsAZeroBit :
    (chans [chan 0 true 0 false]).channel? 0 = some (chan 0 true 0 false) ∧
    (chans [chan 99 false 9 false]).channel? 0 = some (chan 99 false 9 false) ∧
    (chan 99 false 9 false).bitCount.toNat < (chans [chan 99 false 9 false]).config.maxBits.toNat ∧
    1 ≤ (chans [chan 0 true 0 false]).config.maxBits.toNat ∧
    (chans [chan 100 false 9 false]).channel? 0 = some (chan 100 false 9 false) := by decide

/-- The same states, for line 1. -/
theorem witness_Edge1AppendsAOneBit :
    (chans [chan 0 true 0 false]).channel? 0 = some (chan 0 true 0 false) ∧
    (chans [chan 99 false 9 false]).channel? 0 = some (chan 99 false 9 false) ∧
    (chan 99 false 9 false).bitCount.toNat < (chans [chan 99 false 9 false]).config.maxBits.toNat ∧
    1 ≤ (chans [chan 0 true 0 false]).config.maxBits.toNat ∧
    (chans [chan 100 false 9 false]).channel? 0 = some (chan 100 false 9 false) := by decide

theorem witness_FullBufferDiscardsTheBit :
    ((chans [chan 100 false 9 false]).channel? 0 = some (chan 100 false 9 false) ∧
      (chan 100 false 9 false).bitCount = (chans [chan 100 false 9 false]).config.maxBits) ∧
    ((chans [chan 99 false 9 false]).channel? 0 = some (chan 99 false 9 false) ∧
      (chan 99 false 9 false).bitCount.toNat ≤ (chans [chan 99 false 9 false]).config.maxBits.toNat) ∧
    (∃ t, exec (.edge0 0) (chans [chan 100 false 9 false]) = .next t ∧ true = true) ∧
    ∃ t, exec (.edge1 0) (chans [chan 99 false 9 false]) = .next t ∧ true = true :=
  ⟨by decide, by decide, exists_of_after (p := fun _ => true) (by decide), exists_of_after (p := fun _ => true) (by decide)⟩

/-- A channel that was there, and one that the operation creates. -/
theorem witness_BufferWritesAreSetOrClear :
    (∃ t, exec (.edge1 0) (chans [chan 0 true 0 false]) = .next t ∧ decide ((t.channel? 0).isSome = true) = true) ∧
    (chans [chan 0 true 0 false]).channel? 0 = some (chan 0 true 0 false) ∧
    (∃ t, exec (.reg 0 0 true) State.reset = .next t ∧ decide ((t.channel? 0).isSome = true) = true) ∧
    State.reset.channel? 0 = none :=
  ⟨exists_of_after (by decide), by decide, exists_of_after (by decide), by decide⟩

/-- Ready; armed at 2, at 1 and (unreachable) at 0. -/
theorem witness_ScanCountsDownToTheFrameBoundary :
    ((chans [chan 5 true 0 false]).channel? 0 = some (chan 5 true 0 false) ∧ (chan 5 true 0 false).frameReady = true) ∧
    (∀ n ∈ [0, 1, 2], (chans [chan 5 false n false]).channel? 0 = some (chan 5 false n false) ∧
      (chan 5 false n false).frameReady = false) := by decide

theorem witness_Corp1000FrameIsDecoded :
    (chans [holds (bitsOf 35 0x75782468B) true 0]).channel? 0 = some (holds (bitsOf 35 0x75782468B) true 0) ∧
    (holds (bitsOf 35 0x75782468B) true 0).frameReady = true ∧ (holds (bitsOf 35 0x75782468B) true 0).bitCount = 35#7 ∧
    (holds (bitsOf 35 0x75782468B) true 0).frame = corp1000Bits 7#3 0xABC#12 0x12345#20 ∧
    lookupFormat (chans [holds (bitsOf 35 0x75782468B) true 0]).config.formats 35 = some ⟨.corp1000, 35, 2, 14, 14, 34⟩ := by decide

theorem witness_W26FrameIsDecoded :
    (chans [holds (bitsOf 26 0x3579BDF) true 0]).channel? 0 = some (holds (bitsOf 26 0x3579BDF) true 0) ∧
    (holds (bitsOf 26 0x3579BDF) true 0).frameReady = true ∧ (holds (bitsOf 26 0x3579BDF) true 0).bitCount = 26#7 ∧
    (holds (bitsOf 26 0x3579BDF) true 0).frame = w26Bits 3#2 0xAB#8 0xCDEF#16 ∧
    lookupFormat (chans [holds (bitsOf 26 0x3579BDF) true 0]).config.formats 26 = some ⟨.w26, 26, 1, 9, 9, 25⟩ := by decide

theorem witness_W32FrameIsDecoded :
    (chans [holds (bitsOf 32 0xAABC1234) true 0]).channel? 0 = some (holds (bitsOf 32 0xAABC1234) true 0) ∧
    (holds (bitsOf 32 0xAABC1234) true 0).frameReady = true ∧ (holds (bitsOf 32 0xAABC1234) true 0).bitCount = 32#7 ∧
    (holds (bitsOf 32 0xAABC1234) true 0).frame = w32Bits 5#4 0xABC#12 0x1234#16 ∧
    lookupFormat (chans [holds (bitsOf 32 0xAABC1234) true 0]).config.formats 32 = some ⟨.w32, 32, 4, 16, 16, 32⟩ := by decide

set_option maxRecDepth 4000 in
/-- The shortest frame, the longest, and the neighbours of the three format lengths. -/
theorem witness_UnsupportedFrameIsReported :
    ∀ n ∈ [1, 25, 27, 31, 33, 34, 36, 100],
      (chans [holds (List.replicate n true) true 0]).channel? 0 = some (holds (List.replicate n true) true 0) ∧
      (holds (List.replicate n true) true 0).frameReady = true ∧
      (holds (List.replicate n true) true 0).bitCount ≠ 0#7 ∧
      lookupFormat (chans [holds (List.replicate n true) true 0]).config.formats
        (holds (List.replicate n true) true 0).bitCount.toNat = none ∧
      (holds (List.replicate n true) true 0).frame = List.replicate n true ∧
      (holds (List.replicate n true) true 0).facilityCode = 0#12 ∧
      (holds (List.replicate n true) true 0).cardCode = 0#20 := by decide

/-- `DECODE` and the statements about what follows it: a frame of each kind. -/
theorem witness_DecodePerformsItsFiveSteps :
    ∀ n ∈ [1, 26, 32, 35, 100],
      (chans [chan n true 0 false]).channel? 0 = some (chan n true 0 false) ∧ (chan n true 0 false).frameReady = true ∧
      (chan n true 0 false).bitCount ≠ 0#7 ∧ (chans [chan n true 0 false]).config.formats = formatTable := by decide

theorem witness_DecodePerformsTheHeldFrame :
    ∀ n ∈ [1, 26, 32, 35, 100],
      (chans [chan n true 0 false]).channel? 0 = some (chan n true 0 false) ∧ (chan n true 0 false).frameReady = true ∧
      (chan n true 0 false).bitCount ≠ 0#7 ∧ (chan n true 0 false).bitCount.toNat ≤ 100 := by decide

theorem witness_NextBitAfterADecodeStartsAFreshFrame :
    (chans [chan 27 true 0 false]).channel? 0 = some (chan 27 true 0 false) ∧
    1 ≤ (chans [chan 27 true 0 false]).config.maxBits.toNat ∧
    ∃ t, exec (.decode 0) (chans [chan 27 true 0 false]) = .next t ∧ true = true :=
  ⟨by decide, by decide, exists_of_after (p := fun _ => true) (by decide)⟩

/-- A matched row with another bit 0, and no matched row with other bits throughout. -/
theorem witness_UninterpretedBitsHaveNoEffect :
    ((chans [chan 26 true 0 false]).channel? 0 = some (chan 26 true 0 false) ∧
      ∀ row, lookupFormat (chans [chan 26 true 0 false]).config.formats (chan 26 true 0 false).bitCount.toNat = some row →
        ∀ j, (row.fs ≤ j ∧ j < row.fe) ∨ (row.cs ≤ j ∧ j < row.ce) →
          (1#127).getLsbD j = (chan 26 true 0 false).bits.getLsbD j) ∧
    ((chans [chan 27 true 0 false]).channel? 0 = some (chan 27 true 0 false) ∧
      lookupFormat (chans [chan 27 true 0 false]).config.formats (chan 27 true 0 false).bitCount.toNat = none) := by
  refine ⟨⟨by decide, ?_⟩, by decide⟩
  intro row h j hj
  obtain rfl : rowW26 = row := Option.some.inj h
  have : ∀ j < 25, 1 ≤ j → (1#127).getLsbD j = (chan 26 true 0 false).bits.getLsbD j := by decide
  exact this j (by simp [rowW26] at hj; omega) (by simp [rowW26] at hj; omega)

theorem witness_PollEventsAscendByChannel :
    ∃ t, exec .poll (chans [chan 26 false 1 false, chan 5 false 1 false]) = .next t ∧
      decide (t.outputs.events.length = 2) = true := exists_of_after (by decide)

/-- Expired; armed, at its last tick and before it; no channel at all. -/
theorem witness_PollOfAnIdleChannelTouchesOnlyTheCountdown :
    (∀ ch ∈ [chan 0 true 0 false, chan 0 false 1 false, chan 0 false 3000 true],
      (chans [ch]).channel? 0 = some ch ∧ ch.bitCount = 0#7 ∧ (ch.frameReady = true ∨ ch.inactivityCounter ≠ 0#12) ∧ after (exec .poll (chans [ch])) (fun _ => true) = true) ∧
    State.reset.numReaders = 0 := by decide

/-- Every row of R153: the state before it. -/
theorem witness_ChannelStateMachineTransitions :
    after (exec (.reg 2 3 true) State.reset) (fun t => decide (t.outputs.regResult = some (.ok 0))) = true ∧
    (chan 0 false 3000 false).phase = .idle ∧ (chan 0 true 0 false).phase = .idle ∧
    (chan 0 true 0 false).frameReady = true ∧ (chan 0 false 1 false).phase = .idle ∧
    (chan 0 false 1 false).frameReady = false ∧ (chan 100 false 9 false).phase = .accumulating ∧
    (chan 100 false 9 false).bitCount.toNat ≤ State.reset.config.maxBits.toNat ∧ 1 ≤ State.reset.config.maxBits.toNat ∧ (chan 5 false 2 false).phase = .accumulating ∧
    1 < (chan 5 false 2 false).inactivityCounter.toNat ∧ (chan 5 false 1 false).phase = .accumulating ∧
    (chan 5 false 1 false).inactivityCounter = 1#12 ∧ (chan 5 false 1 false).cbPresent = true := by decide

/-- S5: an edge one tick from timeout, then a `POLL`. -/
theorem witness_EdgeKeepsTheNextPollFromTimingOut :
    2 ≤ (chans [chan 13 false 1 false]).config.wait.toNat ∧
    ∃ t, exec (.edge0 0) (chans [chan 13 false 1 false]) = .next t ∧
      after (exec .poll t) (fun u => decide (status 0 u = some (14, false, 2999, false))) = true :=
  ⟨by decide, exists_of_after (by decide)⟩

/-- At the last tick, and at the start of the window, where 3000 polls are presented. -/
theorem witness_FrameIsDecodedByTheLastPollOfItsWindow :
    ∀ n ∈ [1, 3000], ({ chans [chan 5 false n false] with inputs := List.replicate n pollSample } : State).channel? 0 =
        some (chan 5 false n false) ∧ (chan 5 false n false).frameReady = false ∧ (chan 5 false n false).bitCount ≠ 0#7 ∧
      (chan 5 false n false).cbPresent = true ∧ (chan 5 false n false).inactivityCounter ≠ 0#12 ∧
      ({ chans [chan 5 false n false] with inputs := List.replicate n pollSample } : State).inputs =
        List.replicate (chan 5 false n false).inactivityCounter.toNat pollSample ++ [] := by
  intro n hn
  simp only [List.mem_cons, List.not_mem_nil, or_false] at hn
  obtain rfl | rfl := hn
  · decide
  · refine ⟨by decide, by decide, by decide, by decide, by decide, ?_⟩
    rw [List.append_nil]
    rfl

/-- From both idle classes (R38): a channel as `REG` leaves it, and one as a decode leaves it. -/
theorem witness_EveryTransmittedFrameIsReportedOnce :
    ∀ ch ∈ [chan 0 false 3000 false, chan 0 true 0 true],
      State.reset.config.legal = true ∧ ch.Inv State.reset.config ∧ ch.bitCount = 0#7 ∧ ch.cbPresent = true ∧ bitsOf 26 0x3579BDF ≠ [] ∧
      ({ chans [ch] with
        inputs := (bitsOf 26 0x3579BDF).map (edgeSample 0) ++
          (List.replicate State.reset.config.wait.toNat pollSample ++ []) } : State).channel? 0 =
        some ch := by
  intro ch hch
  simp only [List.mem_cons, List.not_mem_nil, or_false] at hch
  obtain rfl | rfl := hch
  · exact ⟨by decide, by decide, by decide, by decide, by decide, by rfl⟩
  · exact ⟨by decide, by decide, by decide, by decide, by decide, by rfl⟩

/-- A state with a frame in progress, at its last tick, with a `POLL` to come. -/
theorem witness_EveryStepKeepsTheChannelInvariants :
    ({ chans [chan 5 false 1 false] with inputs := [pollSample] } : State).Inv ∧
    ∃ t, step { chans [chan 5 false 1 false] with inputs := [pollSample] } = .next t ∧ true = true :=
  ⟨by decide, exists_of_after (p := fun _ => true) (by decide)⟩

theorem witness_ResetMeetsTheChannelInvariants :
    (chans [chan 5 false 1 false]).Inv ∧
    ∃ t, exec (.reg 2 3 true) (chans [chan 5 false 1 false]) = .next t ∧ true = true :=
  ⟨by decide, exists_of_after (p := fun _ => true) (by decide)⟩

/-- A full buffer beside another channel (S6), and a machine that agrees on channel 0 only. -/
theorem witness_OperationsTouchTheirOwnChannelOnly :
    addressee (.edge1 0) ≠ some 1 ∧ addressee (.edge1 0) = some 0 ∧
    (chans [chan 100 false 9 false, chan 3 false 8 false]).channel? 1 = some (chan 3 false 8 false) ∧
    (chans [chan 100 false 9 false, chan 3 false 8 false]).channel? 0 = (capped 1 [chan 100 false 9 false]).channel? 0 ∧
    ((chans []).config.maxBits = (capped 1 []).config.maxBits ∧ (chans []).config.wait = (capped 1 []).config.wait ∧
      (chans []).config.formats = (capped 1 []).config.formats) ∧
    ∃ t, exec (.edge1 0) (chans [chan 100 false 9 false, chan 3 false 8 false]) = .next t ∧ true = true :=
  ⟨by decide, by decide, by decide, by decide, by decide, exists_of_after (p := fun _ => true) (by decide)⟩

/-- Two machines that agree on channel 0 and the sample, and on nothing else. -/
theorem witness_ChannelDependsOnItsOwnStateOnly :
    ({ chans [chan 5 false 1 false] with inputs := [pollSample] } : State).channel? 0 =
      ({ capped 2 [chan 5 false 1 false, chan 7 false 1 false] with inputs := [pollSample] } : State).channel? 0 ∧
    (({ chans [chan 5 false 1 false] with inputs := [pollSample] } : State).channel? 0).isSome = true ∧
    ((chans []).config.maxBits = (capped 2 []).config.maxBits ∧ (chans []).config.wait = (capped 2 []).config.wait ∧
      (chans []).config.formats = (capped 2 []).config.formats) ∧
    (∃ t, step { chans [chan 5 false 1 false] with inputs := [pollSample] } = .next t ∧ true = true) ∧
    ∃ t, step { capped 2 [chan 5 false 1 false, chan 7 false 1 false] with inputs := [pollSample] } = .next t ∧ true = true :=
  ⟨by decide, by decide, by decide, exists_of_after (p := fun _ => true) (by decide),
    exists_of_after (p := fun _ => true) (by decide)⟩

theorem witness_ParametersAreNeverWritten :
    (∃ t, exec (.reg 2 3 true) State.reset = .next t ∧ true = true) ∧
    ∃ t, step { State.reset with inputs := [pollSample, pollSample] } = .next t ∧ true = true :=
  ⟨exists_of_after (p := fun _ => true) (by decide), exists_of_after (p := fun _ => true) (by decide)⟩

/-- A `REG` that grows the registry, and an operation that does not, with a channel that stays. -/
theorem witness_RegistryOnlyGrowsByReg :
    (∃ t, exec (.reg 2 3 true) (chans [chan 0 true 0 false]) = .next t ∧ true = true) ∧
    (∃ t, exec .poll (chans [chan 0 true 0 false]) = .next t ∧ true = true) ∧
    (chans [chan 0 true 0 false]).channel? 0 = some (chan 0 true 0 false) :=
  ⟨exists_of_after (p := fun _ => true) (by decide), exists_of_after (p := fun _ => true) (by decide), by decide⟩

theorem witness_EventsComeOnlyFromPoll :
    ∃ t, step { chans [chan 5 false 1 false] with inputs := [pollSample] } = .next t ∧
      decide (t.outputs.events ≠ []) = true := exists_of_after (by decide)

/-- A `POLL` that writes the verdict. -/
theorem witness_VerdictIsWrittenByADecodeOnly :
    (chans [chan 5 false 1 false]).channel? 0 = some (chan 5 false 1 false) ∧
    ∃ t, exec .poll (chans [chan 5 false 1 false]) = .next t ∧
      (t.channel? 0).any (fun ch => decide (ch.formatUnsupported ≠ (chan 5 false 1 false).formatUnsupported)) = true :=
  ⟨by decide, exists_of_after (by decide)⟩

/-- Each row of the spec's table. -/
theorem witness_LegalRowsStayWithinTheFrame :
    State.reset.config.legal = true ∧
    lookupFormat State.reset.config.formats (chan 35 true 0 false).bitCount.toNat = some rowCorp1000 ∧
    lookupFormat State.reset.config.formats (chan 26 true 0 false).bitCount.toNat = some rowW26 ∧
    lookupFormat State.reset.config.formats (chan 32 true 0 false).bitCount.toNat = some rowW32 := by decide

end Sys2Proof.Machine.Tests
end

section
/-! SUPPORT. Fields within a code register and within a held frame (R55, R80), legal rows (R8), words on the ports (R89). -/
namespace Sys2Proof

/-- A range that ends where it begins, or before, reads no cell (R79). -/
theorem extract_of_le (cell : Nat → Bool) {start stop : Nat} (h : stop ≤ start) : extract cell start stop = 0 := by
  simp [extract, Nat.sub_eq_zero_of_le h]

/-- A field is no wider than its range: no set bit is shifted out of it (R80). -/
theorem extract_lt_two_pow (cell : Nat → Bool) (start stop : Nat) : extract cell start stop < 2 ^ (stop - start) := by
  rcases Nat.le_total stop start with h | h
  · rw [extract_of_le cell h]
    exact Nat.two_pow_pos _
  · obtain ⟨n, rfl⟩ := Nat.exists_eq_add_of_le h
    rw [Nat.add_sub_cancel_left]
    refine Nat.lt_pow_two_of_testBit _ fun j hj => ?_
    simp [testBit_extract, hj]

/-- A register as wide as the range holds the field untruncated (R80). -/
theorem toNat_ofNat_extract {w start stop : Nat} (cell : Nat → Bool) (h : stop - start ≤ w) :
    (BitVec.ofNat w (extract cell start stop)).toNat = extract cell start stop := by
  have hlt : extract cell start stop < 2 ^ w :=
    (extract_lt_two_pow cell start stop).trans_le (Nat.pow_le_pow_right two_pos h)
  rw [BitVec.toNat_ofNat, Nat.mod_eq_of_lt hlt]

/-- The row that a length matches in a legal block has that length, and fits (R8, R76). -/
theorem Config.legal_lookupFormat {cfg : Config} {n : Nat} {row : FormatRow} (hcfg : cfg.legal = true)
    (h : lookupFormat cfg.formats n = some row) : row.len = n ∧ row.fits cfg.maxBits = true := by
  obtain ⟨hmem, hlen⟩ := lookupFormat_some h
  obtain ⟨-, -, hfits, -⟩ := Config.legal_iff.mp hcfg
  exact ⟨hlen, hfits row hmem⟩

/-- Every word on the ports decodes, and to one operation only (R89, R213). -/
theorem decode_op_eq_ok {w : OpWord} {i : Instr} : decode (.op w) = .ok i ↔ decodeOp w = i :=
  ⟨Except.ok.inj, congrArg Except.ok⟩

namespace Machine

/-- A range within `bitCount` reads the bits of the held frame and no other cell (R55). -/
theorem Channel.extract_eq_extract_frame (ch : Channel) {start stop : Nat} (h : stop ≤ ch.bitCount.toNat) :
    ch.extract start stop = Sys2Proof.extract (cellOf ch.frame) start stop :=
  extract_congr fun _ _ hi => (ch.cellOf_frame (hi.trans_le h)).symm

end Machine
end Sys2Proof
end

section
/-! Settles the statements of 00_scope.md. -/
namespace Sys2Proof.Machine

/-- Settles O47: a legal row that matches a frame fits it (R8), and a field of a range that fits is neither truncated nor
read from outside the frame. -/
theorem legalRowsStayWithinTheFrame : Obligations.LegalRowsStayWithinTheFrame := by
  intro cfg ch row hcfg hrow
  obtain ⟨hlen, hfits⟩ := Config.legal_lookupFormat hcfg hrow
  obtain ⟨⟨-, hfe, hfac⟩, ⟨-, hce, hcard⟩, hmax⟩ := FormatRow.fits_iff.mp hfits
  rw [hlen] at hfe hce hmax
  exact ⟨hfe, hce, hmax, toNat_ofNat_extract _ hfac, toNat_ofNat_extract _ hcard,
    ch.extract_eq_extract_frame hfe, ch.extract_eq_extract_frame hce⟩

/-- Settles O2, by the two cases of `step`: a sample to come, or none. -/
theorem stepPerformsTheDecodedOperation : Obligations.StepPerformsTheDecodedOperation := by
  constructor
  · intro s w rest i hin hdec
    rw [step_cons hin, decode_op_eq_ok.mp hdec]
    rfl
  · intro s hin
    exact step_nil hin

/-- Settles O46: the constants stand in `State.reset` as the spec writes them, and legality is a check on them. -/
theorem resetHasTheSpecsConstants : Obligations.ResetHasTheSpecsConstants :=
  ⟨rfl, rfl, rfl, by decide⟩

end Sys2Proof.Machine
end

section
/-! SUPPORT. What a step can do, what an operation can do to a channel that was there (R51) and to the registry (R29), and
the invariants of R37 under the operations on one channel. -/
namespace Sys2Proof.Machine

/-- If a step answers a next state, it idled, or it took a sample that asserts `rst`, or performed the operation of one. -/
theorem step_next {s t : State} (h : step s = .next t) :
    (s.inputs = [] ∧ t = s.idle) ∨
    ∃ x rest, s.inputs = x :: rest ∧ ((x.rst = true ∧ t = (s.withInputs rest).powerOn) ∨
      (x.rst = false ∧ exec (decodeOp x.word) (s.withInputs rest) = .next t)) := by
  cases hin : s.inputs with
  | nil =>
    rw [step_nil hin] at h
    exact .inl ⟨rfl, (Host.Outcome.next.inj h).symm⟩
  | cons x rest =>
    refine .inr ⟨x, rest, rfl, ?_⟩
    rw [step_cons hin] at h
    cases hrst : x.rst with
    | true =>
      rw [hrst, if_pos rfl] at h
      exact .inl ⟨rfl, (Host.Outcome.next.inj h).symm⟩
    | false =>
      rw [hrst, if_neg Bool.false_ne_true] at h
      exact .inr ⟨rfl, h⟩

/-- The micro-operation `SCAN` has no code on the ports (R81). -/
theorem decodeOp_ne_scan (w : OpWord) (c : Nat) : decodeOp w ≠ .scan c := by
  unfold decodeOp
  split_ifs <;> exact nofun

/-- A channel that was there is left alone, polled, or stepped by an operation addressed to it (R51). -/
theorem exec_channel? {i : Instr} {s t : State} {c : Nat} {ch : Channel} (h : exec i s = .next t)
    (hc : s.channel? c = some ch) :
    ∃ ch', t.channel? c = some ch' ∧ (ch' = ch ∨ (i = .poll ∧ ch' = (pollChannel s.config c ch).1) ∨
      ∃ es, ChannelStep s.config c ch i ch' es) := by
  rcases exec_next h with ⟨-, rfl⟩ | ⟨rfl, -⟩ | ⟨l0, l1, cb, -, ⟨-, rfl⟩ | ⟨-, -, rfl⟩⟩ |
    ⟨d, chd, ch', es, -, hd, hstep, rfl⟩
  · exact ⟨ch, hc, .inl rfl⟩
  · exact ⟨_, by rw [exec_poll_channel? h, hc]; rfl, .inr (.inl ⟨rfl, rfl⟩)⟩
  · exact ⟨ch, hc, .inl rfl⟩
  · exact ⟨ch, (List.getElem?_append_left (State.channel?_lt hc)).trans hc, .inl rfl⟩
  · by_cases hdc : d = c
    · subst hdc
      obtain rfl : chd = ch := Option.some.inj (hd.symm.trans hc)
      exact ⟨ch', State.channel?_complete_set_self hc ch' _, .inr (.inr ⟨es, hstep⟩)⟩
    · exact ⟨ch, by rw [State.channel?_complete_set, if_neg fun e => hdc e.1, hc], .inl rfl⟩

/-- Only a `REG` that is not over the capacity makes the registry longer, and only it returns a handle (R29, R104). -/
theorem exec_numReaders {i : Instr} {s t : State} (h : exec i s = .next t) :
    (t.numReaders = s.numReaders ∧ ∀ n, t.outputs.regResult ≠ some (.ok n)) ∨
    ((∃ l0 l1 cb, i = .reg l0 l1 cb) ∧ t.numReaders = s.numReaders + 1 ∧
      t.outputs.regResult = some (.ok s.numReaders)) := by
  rcases exec_next h with ⟨-, rfl⟩ | ⟨-, rfl⟩ | ⟨l0, l1, cb, rfl, ⟨-, rfl⟩ | ⟨-, -, rfl⟩⟩ |
    ⟨d, chd, ch', es, -, -, -, rfl⟩
  · exact .inl ⟨rfl, nofun⟩
  · exact .inl ⟨by simp [State.numReaders, length_pollFrom], nofun⟩
  · exact .inl ⟨rfl, nofun⟩
  · exact .inr ⟨⟨l0, l1, cb, rfl⟩, by simp [State.numReaders], rfl⟩
  · exact .inl ⟨State.numReaders_complete_set s d ch' _, nofun⟩

/-! ### What a channel keeps -/

/-- A channel's part of a `POLL` leaves its lines and its handler bit (R23, R28). -/
theorem pollChannel_identity (cfg : Config) (c : Nat) (ch : Channel) :
    (pollChannel cfg c ch).1.line0 = ch.line0 ∧ (pollChannel cfg c ch).1.line1 = ch.line1 ∧
      (pollChannel cfg c ch).1.cbPresent = ch.cbPresent := by
  obtain ⟨h0, h1, -, -, -, -, -, hcb⟩ := ch.scan_frame
  cases hf : ch.scan.finished with
  | true => rw [pollChannel_finished hf, decodeChannel_fst]; exact ⟨h0, h1, hcb⟩
  | false => rw [pollChannel_unfinished hf]; exact ⟨h0, h1, hcb⟩

/-- What a decode of the finished frame `ch` makes of the count and the verdict (R32, R139). -/
theorem decodeChannel_verdict {ch : Channel} (cfg : Config) (c : Nat) (h : ch.finished = true) :
    ch.bitCount ≠ 0#7 ∧ (decodeChannel cfg c ch).1.bitCount = 0#7 ∧
      (decodeChannel cfg c ch).1.formatUnsupported = verdict cfg.formats ch.bitCount.toNat := by
  rw [decodeChannel_fst]
  exact ⟨(Channel.finished_iff.mp h).1, rfl, rfl⟩

/-- A channel's part of a `POLL` writes the verdict only where it decodes (R32, R125 b). -/
theorem pollChannel_verdict {cfg : Config} {c : Nat} {ch : Channel}
    (h : (pollChannel cfg c ch).1.formatUnsupported ≠ ch.formatUnsupported) :
    ch.bitCount ≠ 0#7 ∧ (pollChannel cfg c ch).1.bitCount = 0#7 ∧
      (pollChannel cfg c ch).1.formatUnsupported = verdict cfg.formats ch.bitCount.toNat := by
  obtain ⟨-, -, -, hbc, -, -, hfu, -⟩ := ch.scan_frame
  cases hf : ch.scan.finished with
  | true =>
    have hd := decodeChannel_verdict cfg c hf
    rw [hbc] at hd
    rwa [pollChannel_finished hf]
  | false =>
    rw [pollChannel_unfinished hf] at h
    exact absurd hfu h

/-- An operation addressed to a channel writes the verdict only where it decodes (R32, R208). -/
theorem ChannelStep.verdict {cfg : Config} {c : Nat} {ch ch' : Channel} {i : Instr} {es : List DecodeEvent}
    (h : ChannelStep cfg c ch i ch' es) (hne : ch'.formatUnsupported ≠ ch.formatUnsupported) :
    (i = .decode c ∨ ∃ frame, encode i = some (.frame c frame)) ∧ ch.bitCount ≠ 0#7 ∧ ch'.bitCount = 0#7 ∧
      ch'.formatUnsupported = Machine.verdict cfg.formats ch.bitCount.toNat := by
  cases h with
  | edge0 => exact absurd (by rw [Channel.captureZero_eq]) hne
  | edge1 => exact absurd (by rw [Channel.captureOne_eq]) hne
  | scan =>
    obtain ⟨-, -, -, -, -, -, hfu, -⟩ := ch.scan_frame
    exact absurd hfu hne
  | decode hf => exact ⟨.inl rfl, decodeChannel_verdict cfg c hf⟩
  | frame _ hf he => exact ⟨.inr ⟨_, he⟩, decodeChannel_verdict cfg c hf⟩

/-! ### The invariants of R37 on one channel

They fall into a part on the frame registers, which `SCAN` and the countdown restart leave alone and a decode establishes,
and a part on the countdown, which the restart establishes and a decode leaves alone. -/

/-- R37 (a), (c) and (d): the frame registers. -/
structure Channel.FrameInv (cfg : Config) (ch : Channel) : Prop where
  bitCount_le : ch.bitCount.toNat ≤ cfg.maxBits.toNat
  zeroAbove : ch.zeroAbove
  codes : ch.facilityCode = 0#12 ∧ ch.cardCode = 0#20

/-- R37 (b) and (e): the countdown and its flag. -/
structure Channel.CountdownInv (cfg : Config) (ch : Channel) : Prop where
  counter_le : ch.inactivityCounter.toNat ≤ cfg.wait.toNat
  ready_iff : ch.frameReady = true ↔ ch.inactivityCounter = 0#12

theorem Channel.inv_iff {cfg : Config} {ch : Channel} :
    ch.Inv cfg ↔ ch.FrameInv cfg ∧ ch.CountdownInv cfg ∧ ch.finished = false := by
  constructor
  · rintro ⟨hbc, hcnt, hz, hcodes, hready, hfin⟩
    exact ⟨⟨hbc, hz, hcodes⟩, ⟨hcnt, hready⟩, hfin⟩
  · rintro ⟨⟨hbc, hz, hcodes⟩, ⟨hcnt, hready⟩, hfin⟩
    exact ⟨hbc, hcnt, hz, hcodes, hready, hfin⟩

/-- The countdown restart leaves a channel that meets R37 when its frame registers do: `WAIT` is not 0 (R8, R113). -/
theorem Channel.FrameInv.inv_restart {cfg : Config} {ch : Channel} (hcfg : cfg.legal = true) (h : ch.FrameInv cfg) :
    (ch.restart cfg).Inv cfg := by
  obtain ⟨hwait, -⟩ := Config.legal_iff.mp hcfg
  have hne : cfg.wait ≠ 0#12 := fun e => by simp [e] at hwait
  exact Channel.inv_iff.mpr ⟨⟨h.bitCount_le, h.zeroAbove, h.codes⟩, ⟨le_rfl, by simp [hne]⟩, by simp [Channel.finished]⟩

/-- One more bit, of either value: the cells above the one at `bitCount` are as they were (R110, R111). -/
theorem Channel.FrameInv.advance {cfg : Config} {ch d : Channel} (h : ch.FrameInv cfg) (hroom : ch.hasRoom cfg = true)
    (hbc : d.bitCount = ch.bitCount) (hcodes : d.facilityCode = ch.facilityCode ∧ d.cardCode = ch.cardCode)
    (hread : ∀ j, ch.bitCount.toNat < j → d.bufRead j = ch.bufRead j) : d.advance.FrameInv cfg := by
  have hlt : ch.bitCount.toNat < cfg.maxBits.toNat := of_decide_eq_true hroom
  have hsucc : d.advance.bitCount.toNat = ch.bitCount.toNat + 1 := by
    rw [Channel.advance_bitCount, hbc, bitCount_succ_toNat hlt]
  refine ⟨by omega, fun j hj hle => ?_, ?_⟩
  · exact (hread j (by omega)).trans (h.zeroAbove j hj (by omega))
  · exact ⟨hcodes.1.trans h.codes.1, hcodes.2.trans h.codes.2⟩

theorem Channel.FrameInv.inv_captureZero {cfg : Config} {ch : Channel} (hcfg : cfg.legal = true) (h : ch.FrameInv cfg) :
    (ch.captureZero cfg).Inv cfg := by
  unfold Channel.captureZero
  split
  case isTrue hroom => exact (h.advance hroom rfl ⟨rfl, rfl⟩ fun _ _ => rfl).inv_restart hcfg
  case isFalse => exact h.inv_restart hcfg

theorem Channel.FrameInv.inv_captureOne {cfg : Config} {ch : Channel} (hcfg : cfg.legal = true) (h : ch.FrameInv cfg) :
    (ch.captureOne cfg).Inv cfg := by
  unfold Channel.captureOne
  split
  case isTrue hroom =>
    have hread : ∀ j, ch.bitCount.toNat < j → (ch.bufSet ch.bitCount.toNat).bufRead j = ch.bufRead j :=
      fun j hj => by simp [Channel.bufRead_bufSet, hj.ne]
    exact (h.advance hroom (Channel.bufSet_bitCount ch _) ⟨rfl, rfl⟩ hread).inv_restart hcfg
  case isFalse => exact h.inv_restart hcfg

/-- A channel as `REG` creates it: an empty frame, and the countdown as a restart leaves it (R103). -/
theorem Channel.inv_registered {cfg : Config} (hcfg : cfg.legal = true) (l0 l1 : LineId) (cb : Bool) :
    (Channel.registered cfg l0 l1 cb).Inv cfg := by
  have hframe : (Channel.registered cfg l0 l1 cb).FrameInv cfg :=
    ⟨Nat.zero_le _, fun _ _ _ => BitVec.getLsbD_zero, rfl, rfl⟩
  exact hframe.inv_restart hcfg

theorem Channel.FrameInv.scan {cfg : Config} {ch : Channel} (h : ch.FrameInv cfg) : ch.scan.FrameInv cfg := by
  obtain ⟨-, -, hbits, hbc, hfac, hcard, -, -⟩ := ch.scan_frame
  refine ⟨hbc ▸ h.bitCount_le, fun j hj hle => ?_, hfac ▸ h.codes.1, hcard ▸ h.codes.2⟩
  rw [Channel.bufRead, hbits]
  exact h.zeroAbove j hj (hbc ▸ hle)

/-- `SCAN` counts down and sets the flag exactly at 0 (R122, R123). -/
theorem Channel.CountdownInv.scan {cfg : Config} {ch : Channel} (h : ch.CountdownInv cfg) : ch.scan.CountdownInv cfg := by
  cases hr : ch.frameReady with
  | true => rwa [Channel.scan_ready hr]
  | false =>
    rw [Channel.scan_running hr]
    refine ⟨?_, decide_eq_true_iff⟩
    calc (countDown ch.inactivityCounter).toNat = ch.inactivityCounter.toNat - 1 := toNat_countDown _
      _ ≤ ch.inactivityCounter.toNat := Nat.sub_le _ 1
      _ ≤ cfg.wait.toNat := h.counter_le

/-- A decode leaves an empty frame, hence no finished one, and the countdown as it was (R139). -/
theorem Channel.CountdownInv.inv_decodeChannel {cfg : Config} {ch : Channel} (c : Nat) (h : ch.CountdownInv cfg) :
    (decodeChannel cfg c ch).1.Inv cfg := by
  rw [decodeChannel_fst]
  exact Channel.inv_iff.mpr ⟨⟨Nat.zero_le _, fun _ _ _ => BitVec.getLsbD_zero, rfl, rfl⟩,
    ⟨h.counter_le, h.ready_iff⟩, by simp [Channel.finished]⟩

/-- A channel's part of a `POLL`: the frame that its `SCAN` finishes is decoded in the same pass (R150). -/
theorem Channel.inv_pollChannel {cfg : Config} {ch : Channel} (c : Nat) (h : ch.Inv cfg) :
    (pollChannel cfg c ch).1.Inv cfg := by
  obtain ⟨hframe, hcount, -⟩ := Channel.inv_iff.mp h
  cases hf : ch.scan.finished with
  | true => rw [pollChannel_finished hf]; exact hcount.scan.inv_decodeChannel c
  | false => rw [pollChannel_unfinished hf]; exact Channel.inv_iff.mpr ⟨hframe.scan, hcount.scan, hf⟩

/-- Every operation on a channel keeps R37 but `SCAN` on its own, which can leave a finished frame over. -/
theorem ChannelStep.inv {cfg : Config} {c : Nat} {ch ch' : Channel} {i : Instr} {es : List DecodeEvent}
    (hstep : ChannelStep cfg c ch i ch' es) (hi : i ≠ .scan c) (hcfg : cfg.legal = true) (h : ch.Inv cfg) :
    ch'.Inv cfg := by
  obtain ⟨hframe, hcount, -⟩ := Channel.inv_iff.mp h
  cases hstep with
  | edge0 => exact hframe.inv_captureZero hcfg
  | edge1 => exact hframe.inv_captureOne hcfg
  | scan => exact absurd rfl hi
  | decode => exact hcount.inv_decodeChannel c
  | frame => exact hcount.inv_decodeChannel c

/-! ### The invariants of R37 on the machine -/

/-- A channel after the pass is one from before it, polled. -/
theorem mem_pollFrom_fst {cfg : Config} {c : Nat} {chs : List Channel} {ch' : Channel}
    (h : ch' ∈ (pollFrom cfg c chs).map Prod.fst) : ∃ d, ∃ ch ∈ chs, ch' = (pollChannel cfg d ch).1 := by
  obtain ⟨d, hd⟩ := List.mem_iff_getElem?.mp h
  rw [List.getElem?_map, getElem?_pollFrom, Option.map_map, Option.map_eq_some_iff] at hd
  obtain ⟨ch, hch, rfl⟩ := hd
  exact ⟨c + d, ch, List.mem_of_getElem? hch, rfl⟩

/-- A `REG` that is not refused for capacity leaves `numReaders` within the cap (R101). -/
theorem State.succ_numReaders_le_cap {s : State} (hexc : s.capacityExceeded = false)
    (h : s.config.cap ≠ 0 → s.numReaders ≤ s.config.cap.val) (hcap : s.config.cap ≠ 0) :
    s.numReaders + 1 ≤ s.config.cap.val := by
  have hne : s.numReaders ≠ s.config.cap.val := by simpa [State.capacityExceeded, hcap] using hexc
  exact Nat.lt_of_le_of_ne (h hcap) hne

/-- Every operation keeps R37 but `SCAN` on its own. -/
theorem exec_inv {i : Instr} {s t : State} (hi : ∀ c, i ≠ .scan c) (hs : s.Inv) (h : exec i s = .next t) : t.Inv := by
  obtain ⟨hcfg, hcap, hchs⟩ := hs
  rcases exec_next h with ⟨-, rfl⟩ | ⟨-, rfl⟩ | ⟨l0, l1, cb, -, ⟨-, rfl⟩ | ⟨hexc, -, rfl⟩⟩ |
    ⟨c, ch, ch', es, -, hc, hstep, rfl⟩
  · exact ⟨hcfg, hcap, hchs⟩
  · refine ⟨hcfg, ?_, fun ch' hmem => ?_⟩
    · simpa [State.numReaders, length_pollFrom] using hcap
    · obtain ⟨d, ch, hch, rfl⟩ := mem_pollFrom_fst hmem
      exact Channel.inv_pollChannel d (hchs ch hch)
  · exact ⟨hcfg, hcap, hchs⟩
  · refine ⟨hcfg, fun hne => ?_, fun ch hmem => ?_⟩
    · simpa [State.numReaders] using State.succ_numReaders_le_cap hexc hcap hne
    · obtain hold | hnew := List.mem_append.mp hmem
      · exact hchs ch hold
      · rw [List.mem_singleton.mp hnew]
        exact Channel.inv_registered hcfg l0 l1 cb
  · refine ⟨hcfg, ?_, fun d hmem => ?_⟩
    · rw [State.numReaders_complete_set]
      exact hcap
    · obtain hold | rfl := List.mem_or_eq_of_mem_set hmem
      · exact hchs d hold
      · exact hstep.inv (hi c) hcfg (hchs ch (List.mem_of_getElem? hc))

end Sys2Proof.Machine
end

section
/-! Settles the statements of 10_state.md. -/
namespace Sys2Proof.Machine

/-- Settles O38, by what a step can do: the operation on the ports is never `SCAN` alone. -/
theorem everyStepKeepsTheChannelInvariants : Obligations.EveryStepKeepsTheChannelInvariants := by
  intro s t hs h
  obtain ⟨-, rfl⟩ | ⟨x, rest, -, ⟨-, rfl⟩ | ⟨-, hexec⟩⟩ := step_next h
  · exact hs
  · exact ⟨hs.1, fun _ => Nat.zero_le _, nofun⟩
  · exact exec_inv (decodeOp_ne_scan x.word) (s := s.withInputs rest) hs hexec

/-- Settles O42, by the cases of an operation and of a step. -/
theorem parametersAreNeverWritten : Obligations.ParametersAreNeverWritten := by
  have hexec : ∀ (i : Instr) (s t : State), exec i s = .next t → t.config = s.config ∧ t.inputs = s.inputs := by
    intro i s t h
    rcases exec_next h with ⟨-, rfl⟩ | ⟨-, rfl⟩ | ⟨_, _, _, -, ⟨-, rfl⟩ | ⟨-, -, rfl⟩⟩ | ⟨_, _, _, _, -, -, -, rfl⟩ <;>
      exact ⟨rfl, rfl⟩
  refine ⟨hexec, fun s t h => ?_⟩
  obtain ⟨hin, rfl⟩ | ⟨x, rest, hin, ⟨-, rfl⟩ | ⟨-, h⟩⟩ := step_next h
  · exact ⟨rfl, by rw [hin]; exact hin⟩
  · exact ⟨rfl, by rw [hin]; rfl⟩
  · obtain ⟨hcfg, hrest⟩ := hexec _ _ _ h
    exact ⟨hcfg, by rw [hrest, hin]; rfl⟩

/-- Settles O43: the registry by `exec_numReaders`, and a channel that was there by what can become of it. -/
theorem registryOnlyGrowsByReg : Obligations.RegistryOnlyGrowsByReg := by
  intro i s t h
  refine ⟨exec_numReaders h, fun c ch hc => ?_⟩
  obtain ⟨ch', hc', rfl | ⟨-, rfl⟩ | ⟨es, hstep⟩⟩ := exec_channel? h hc
  · exact ⟨ch', hc', rfl, rfl, rfl⟩
  · exact ⟨_, hc', pollChannel_identity s.config c ch⟩
  · obtain ⟨h0, h1, hcb, -⟩ := hstep.identity
    exact ⟨ch', hc', h0, h1, hcb⟩

/-- Settles O45, by what can become of a channel that was there. -/
theorem verdictIsWrittenByADecodeOnly : Obligations.VerdictIsWrittenByADecodeOnly := by
  intro i s t c ch ch' h hc hc' hne
  obtain ⟨ch'', hc'', hcases⟩ := exec_channel? h hc
  obtain rfl : ch'' = ch' := Option.some.inj (hc''.symm.trans hc')
  obtain rfl | ⟨rfl, rfl⟩ | ⟨es, hstep⟩ := hcases
  · exact absurd rfl hne
  · exact ⟨.inl rfl, pollChannel_verdict hne⟩
  · obtain ⟨hi, hrest⟩ := hstep.verdict hne
    exact ⟨.inr hi, hrest⟩

/-- Settles O39: a registry without channels, and a `REG`, which is no `SCAN`. -/
theorem resetMeetsTheChannelInvariants : Obligations.ResetMeetsTheChannelInvariants :=
  ⟨⟨by decide, fun _ => Nat.zero_le _, nofun⟩, fun l0 l1 cb _ _ hs h => exec_inv (i := .reg l0 l1 cb) nofun hs h⟩

end Sys2Proof.Machine
end

section
/-! SUPPORT. An operation addressed to a channel, as a relation between that channel before and after it (R51): it reads of
the parameters the constants only (R5, R35), and it writes the buffer by the primitives of R52 only. -/
namespace Sys2Proof

/-- Two parameter sets with the same constants of R5 and the same format table, whatever `CAP` and `N_CH` are (R6). -/
structure Config.SameConstants (cfg cfg' : Config) : Prop where
  maxBits : cfg.maxBits = cfg'.maxBits
  wait : cfg.wait = cfg'.wait
  formats : cfg.formats = cfg'.formats

namespace Machine

/-! ### Operations addressed to a channel -/

/-- A frame row's operation is addressed to the channel that holds the frame. -/
theorem addressee_of_encode_frame {i : Instr} {c : Nat} {frame : List Bool} (h : encode i = some (.frame c frame)) :
    addressee i = some c := by
  cases i <;> cases h <;> rfl

theorem ChannelStep.addressee_eq {cfg : Config} {c : Nat} {ch ch' : Channel} {i : Instr} {es : List DecodeEvent}
    (h : ChannelStep cfg c ch i ch' es) : addressee i = some c := by
  cases h with
  | edge0 => rfl
  | edge1 => rfl
  | scan => rfl
  | decode => rfl
  | frame _ _ he => exact addressee_of_encode_frame he

/-- A frame row's operation is `onFrame` with the frame it is encoded as. -/
theorem exec_of_encode_frame {i : Instr} {c : Nat} {frame : List Bool} (h : encode i = some (.frame c frame)) (s : State) :
    exec i s = onFrame c frame s := by
  cases i <;> cases h <;> rfl

/-- `DECODE` on a registered channel (R130, R140). -/
theorem exec_decode_some {s : State} {c : Nat} {ch : Channel} (hc : s.channel? c = some ch) :
    exec (.decode c) s = if ch.finished then
        .next (s.complete (s.channels.set c (decodeChannel s.config c ch).1) ⟨none, (decodeChannel s.config c ch).2⟩)
      else .refused (.noFinishedFrame c) := by
  change execDecode c s = _
  simp only [execDecode, hc, onChannel_some hc]

/-- An operation that answers a next state performed a step on the channel it is addressed to, and nothing else. -/
theorem exec_addressed_next {i : Instr} {s t : State} {c : Nat} (ha : addressee i = some c) (h : exec i s = .next t) :
    ∃ ch ch' es, s.channel? c = some ch ∧ ChannelStep s.config c ch i ch' es ∧
      t = s.complete (s.channels.set c ch') ⟨none, es⟩ := by
  rcases exec_next h with ⟨rfl, -⟩ | ⟨rfl, -⟩ | ⟨l0, l1, cb, rfl, -⟩ | ⟨d, ch, ch', es, hd, hc, hstep, ht⟩
  · cases ha
  · cases ha
  · cases ha
  · obtain rfl : d = c := Option.some.inj (hd.symm.trans ha)
    exact ⟨ch, ch', es, hc, hstep, ht⟩

/-- The converse: whatever step a registered channel can take, `exec` performs. -/
theorem ChannelStep.exec_eq {i : Instr} {s : State} {c : Nat} {ch ch' : Channel} {es : List DecodeEvent}
    (hstep : ChannelStep s.config c ch i ch' es) (hc : s.channel? c = some ch) :
    exec i s = .next (s.complete (s.channels.set c ch') ⟨none, es⟩) := by
  cases hstep with
  | edge0 => exact onChannel_some hc _
  | edge1 => exact onChannel_some hc _
  | scan => exact onChannel_some hc _
  | decode hf => rw [exec_decode_some hc, if_pos hf]; rfl
  | frame _ hf he => rw [exec_of_encode_frame he, onFrame_held hc hf rfl]

/-- A channel that was not there before an operation was created by its `REG` (R102). -/
theorem exec_new_channel {i : Instr} {s t : State} {c : Nat} {ch' : Channel} (h : exec i s = .next t)
    (hc : s.channel? c = none) (hc' : t.channel? c = some ch') :
    ∃ l0 l1 cb, i = .reg l0 l1 cb ∧ ch' = Channel.registered s.config l0 l1 cb := by
  have hge : s.numReaders ≤ c := State.channel?_none.mp hc
  rcases exec_next h with ⟨-, rfl⟩ | ⟨rfl, -⟩ | ⟨l0, l1, cb, rfl, ⟨-, rfl⟩ | ⟨-, -, rfl⟩⟩ |
    ⟨d, _, _, _, -, -, -, rfl⟩
  · cases hc.symm.trans hc'
  · rw [exec_poll_channel? h, hc] at hc'
    cases hc'
  · cases hc.symm.trans hc'
  · rw [State.channel?, State.complete_channels, List.getElem?_append_right hge] at hc'
    exact ⟨l0, l1, cb, rfl, List.mem_singleton.mp (List.mem_of_getElem? hc')⟩
  · rw [State.channel?_complete_set, if_neg fun e => hge.not_gt e.2, hc] at hc'
    cases hc'

/-- Outside a `POLL`, an event comes from the channel that the operation is addressed to. -/
theorem exec_event_addressee {i : Instr} {s t : State} (hi : i ≠ .poll) (h : exec i s = .next t) {e : DecodeEvent}
    (he : e ∈ t.outputs.events) : addressee i = some e.handle := by
  rcases exec_next h with ⟨-, rfl⟩ | ⟨rfl, -⟩ | ⟨_, _, _, -, ⟨-, rfl⟩ | ⟨-, -, rfl⟩⟩ |
    ⟨d, ch, ch', es, hd, -, hstep, rfl⟩
  · cases he
  · exact absurd rfl hi
  · cases he
  · cases he
  · obtain ⟨-, -, -, hhandle⟩ := hstep.identity
    rw [hd, hhandle e he]

/-! ### What an operation reads of the parameters -/

theorem Channel.captureZero_congr {cfg cfg' : Config} (h : cfg.SameConstants cfg') (ch : Channel) :
    ch.captureZero cfg = ch.captureZero cfg' := by
  rw [Channel.captureZero_eq, Channel.captureZero_eq, h.maxBits, h.wait]

theorem Channel.captureOne_congr {cfg cfg' : Config} (h : cfg.SameConstants cfg') (ch : Channel) :
    ch.captureOne cfg = ch.captureOne cfg' := by
  rw [Channel.captureOne_eq, Channel.captureOne_eq, h.maxBits, h.wait]

theorem pollChannel_congr {cfg cfg' : Config} (h : cfg.SameConstants cfg') (c : Nat) (ch : Channel) :
    pollChannel cfg c ch = pollChannel cfg' c ch := by
  simp only [pollChannel, decodeChannel, h.formats]

/-- A channel's step takes no other parameter than the constants and the format table. -/
theorem ChannelStep.congr {cfg cfg' : Config} {c : Nat} {ch ch' : Channel} {i : Instr} {es : List DecodeEvent}
    (hcfg : cfg.SameConstants cfg') (h : ChannelStep cfg c ch i ch' es) : ChannelStep cfg' c ch i ch' es := by
  cases h with
  | edge0 => rw [Channel.captureZero_congr hcfg]; exact .edge0
  | edge1 => rw [Channel.captureOne_congr hcfg]; exact .edge1
  | scan => exact .scan
  | decode hf => rw [hcfg.formats]; exact .decode hf
  | frame _ hf he => rw [hcfg.formats]; exact .frame _ hf he

/-! ### Disjointness of the channels (R51) -/

/-- An operation other than `POLL` leaves a channel it is not addressed to, and emits nothing for it. -/
theorem exec_other_channel {i : Instr} {s t : State} {c : Nat} {ch : Channel} (hi : i ≠ .poll) (ha : addressee i ≠ some c)
    (hc : s.channel? c = some ch) (h : exec i s = .next t) :
    t.channel? c = some ch ∧ eventsOf c t.outputs.events = [] := by
  constructor
  · obtain ⟨ch', hc', rfl | ⟨hpoll, -⟩ | ⟨es, hstep⟩⟩ := exec_channel? h hc
    · exact hc'
    · exact absurd hpoll hi
    · exact absurd hstep.addressee_eq ha
  · refine List.filter_eq_nil_iff.mpr fun e he heq => ha ?_
    rw [exec_event_addressee hi h he, eq_of_beq heq]

/-- An operation addressed to a channel does the same to it in two machines that agree on it and on the constants. -/
theorem exec_addressed_congr {i : Instr} {s s' t : State} {c : Nat} (ha : addressee i = some c)
    (hc : s.channel? c = s'.channel? c) (hcfg : s.config.SameConstants s'.config) (h : exec i s = .next t) :
    ∃ t', exec i s' = .next t' ∧ t'.channel? c = t.channel? c ∧ t'.outputs = t.outputs := by
  obtain ⟨ch, ch', es, hch, hstep, rfl⟩ := exec_addressed_next ha h
  have hch' : s'.channel? c = some ch := hc.symm.trans hch
  refine ⟨_, (hstep.congr hcfg).exec_eq hch', ?_, rfl⟩
  rw [State.channel?_complete_set_self hch', State.channel?_complete_set_self hch]

/-- Any operation does the same to a registered channel in two machines that agree on it and on the constants. -/
theorem exec_channel_congr {i : Instr} {s s' t t' : State} {c : Nat} {ch : Channel} (hc : s.channel? c = some ch)
    (hc' : s'.channel? c = some ch) (hcfg : s.config.SameConstants s'.config) (h : exec i s = .next t)
    (h' : exec i s' = .next t') :
    t.channel? c = t'.channel? c ∧ eventsOf c t.outputs.events = eventsOf c t'.outputs.events := by
  by_cases hi : i = .poll
  · subst hi
    rw [exec_poll_channel? h, exec_poll_channel? h', exec_poll_eventsOf h hc, exec_poll_eventsOf h' hc', hc, hc',
      Option.map_some, Option.map_some, pollChannel_congr hcfg]
    exact ⟨rfl, rfl⟩
  · by_cases ha : addressee i = some c
    · obtain ⟨u, hu, hchan, hout⟩ := exec_addressed_congr ha (hc.trans hc'.symm) hcfg h
      obtain rfl : u = t' := Host.Outcome.next.inj (hu.symm.trans h')
      exact ⟨hchan.symm, by rw [hout]⟩
    · obtain ⟨hchan, hev⟩ := exec_other_channel hi ha hc h
      obtain ⟨hchan', hev'⟩ := exec_other_channel hi ha hc' h'
      exact ⟨hchan.trans hchan'.symm, hev.trans hev'.symm⟩

/-! ### What writes the buffer (R52) -/

/-- A decode clears every cell and the count (R139). -/
theorem decodeChannel_cleared (cfg : Config) (c : Nat) (ch : Channel) :
    (decodeChannel cfg c ch).1.bitCount = 0#7 ∧ ∀ j, (decodeChannel cfg c ch).1.bufRead j = false := by
  rw [decodeChannel_fst]
  exact ⟨rfl, fun _ => BitVec.getLsbD_zero⟩

theorem Channel.bufRead_scan (ch : Channel) (j : Nat) : ch.scan.bufRead j = ch.bufRead j := by
  obtain ⟨-, -, hbits, -⟩ := ch.scan_frame
  rw [Channel.bufRead, Channel.bufRead, hbits]

theorem Channel.bufRead_captureZero (cfg : Config) (ch : Channel) (j : Nat) :
    (ch.captureZero cfg).bufRead j = ch.bufRead j := by
  rw [Channel.captureZero_eq]
  rfl

/-- `EDGE1` sets the cell at `bitCount` below the cap and none at it (R111, R112). -/
theorem Channel.bufRead_captureOne (cfg : Config) (ch : Channel) (j : Nat) :
    (ch.captureOne cfg).bufRead j =
      if ch.bitCount.toNat < cfg.maxBits.toNat then (ch.bufRead j || decide (j = ch.bitCount.toNat)) else ch.bufRead j := by
  unfold Channel.captureOne Channel.hasRoom
  by_cases hroom : ch.bitCount.toNat < cfg.maxBits.toNat
  · have hlt : ch.bitCount.toNat < 127 := by have := cfg.maxBits.isLt; omega
    rw [if_pos (decide_eq_true hroom), if_pos hroom]
    change (ch.bufSet ch.bitCount.toNat).bufRead j = _
    simp [Channel.bufRead_bufSet, hlt, eq_comm]
  · rw [if_neg (by simpa using hroom), if_neg hroom]
    rfl

/-- A channel's part of a `POLL` leaves its cells or clears them. -/
theorem pollChannel_bufRead (cfg : Config) (c : Nat) (ch : Channel) :
    (∀ j, (pollChannel cfg c ch).1.bufRead j = ch.bufRead j) ∨
      ((pollChannel cfg c ch).1.bitCount = 0#7 ∧ ∀ j, (pollChannel cfg c ch).1.bufRead j = false) := by
  cases hf : ch.scan.finished with
  | true => rw [pollChannel_finished hf]; exact .inr (decodeChannel_cleared cfg c ch.scan)
  | false => rw [pollChannel_unfinished hf]; exact .inl ch.bufRead_scan

/-- An operation addressed to a channel leaves its cells, sets the one at `bitCount`, or clears them. -/
theorem ChannelStep.bufRead {cfg : Config} {c : Nat} {ch ch' : Channel} {i : Instr} {es : List DecodeEvent}
    (h : ChannelStep cfg c ch i ch' es) :
    (∀ j, ch'.bufRead j = ch.bufRead j) ∨
    (i = .edge1 c ∧ ch.bitCount.toNat < cfg.maxBits.toNat ∧
      ∀ j, ch'.bufRead j = (ch.bufRead j || decide (j = ch.bitCount.toNat))) ∨
    ((i = .decode c ∨ ∃ frame, encode i = some (.frame c frame)) ∧ ch'.bitCount = 0#7 ∧
      ∀ j, ch'.bufRead j = false) := by
  cases h with
  | edge0 => exact .inl (ch.bufRead_captureZero cfg)
  | edge1 =>
    by_cases hroom : ch.bitCount.toNat < cfg.maxBits.toNat
    · exact .inr (.inl ⟨rfl, hroom, fun j => by rw [Channel.bufRead_captureOne, if_pos hroom]⟩)
    · exact .inl fun j => by rw [Channel.bufRead_captureOne, if_neg hroom]
  | scan => exact .inl ch.bufRead_scan
  | decode => exact .inr (.inr ⟨.inl rfl, decodeChannel_cleared cfg c ch⟩)
  | frame _ _ he => exact .inr (.inr ⟨.inr ⟨_, he⟩, decodeChannel_cleared cfg c ch⟩)

/-- `DECODE` leaves every cell of its channel 0 (R139). -/
theorem exec_decode_bufRead {s t : State} {c : Nat} {ch' : Channel} (h : exec (.decode c) s = .next t)
    (hc' : t.channel? c = some ch') (j : Nat) : ch'.bufRead j = false := by
  obtain ⟨ch, d, es, hc, hstep, rfl⟩ := exec_addressed_next rfl h
  rw [State.channel?_complete_set_self hc] at hc'
  obtain rfl : d = ch' := Option.some.inj hc'
  cases hstep with
  | decode => exact (decodeChannel_cleared s.config c ch).2 j
  | frame _ _ he => cases he

/-! ### What a decode reads of the buffer (R53, R75) -/

/-- Classification reads the cells of the matched row's two ranges only. -/
theorem Channel.classify_withBits {formats : List FormatRow} {ch : Channel} {bits' : FrameBuffer}
    (h : ∀ row, lookupFormat formats ch.bitCount.toNat = some row →
      ∀ j, (row.fs ≤ j ∧ j < row.fe) ∨ (row.cs ≤ j ∧ j < row.ce) → bits'.getLsbD j = ch.bits.getLsbD j) :
    ({ ch with bits := bits' } : Channel).classify formats = { ch.classify formats with bits := bits' } := by
  cases hrow : lookupFormat formats ch.bitCount.toNat with
  | none => rw [Channel.classify_none hrow, Channel.classify_none (ch := { ch with bits := bits' }) hrow]; rfl
  | some row =>
    have hfac : ({ ch with bits := bits' } : Channel).extract row.fs row.fe = ch.extract row.fs row.fe :=
      extract_congr fun j h1 h2 => h row hrow j (.inl ⟨h1, h2⟩)
    have hcard : ({ ch with bits := bits' } : Channel).extract row.cs row.ce = ch.extract row.cs row.ce :=
      extract_congr fun j h1 h2 => h row hrow j (.inr ⟨h1, h2⟩)
    rw [Channel.classify_some hrow, Channel.classify_some (ch := { ch with bits := bits' }) hrow]
    simp only [Channel.loadRow, hfac, hcard]

/-- The event carries no cell, and the frame reset clears them all: what is delivered does not depend on the buffer. -/
theorem deliver_withBits (c : Nat) (decoded : Channel) (bits' : FrameBuffer) :
    deliver c { decoded with bits := bits' } = deliver c decoded := rfl

end Machine
end Sys2Proof
end

section
/-! Settles the statements of 20_memory.md. -/
namespace Sys2Proof.Machine

/-- Settles O41: the two steps take the same sample, and its operation does the same to the channel. -/
theorem channelDependsOnItsOwnStateOnly : Obligations.ChannelDependsOnItsOwnStateOnly := by
  intro s s' t t' c hin hc hsome hmax hwait hformats h h'
  obtain ⟨ch, hch⟩ := Option.isSome_iff_exists.mp hsome
  have hch' : s'.channel? c = some ch := hc.symm.trans hch
  cases hx : s.inputs with
  | nil =>
    rw [step_nil hx] at h
    rw [step_nil (hin.symm.trans hx)] at h'
    cases h
    cases h'
    exact ⟨hc, rfl⟩
  | cons x rest =>
    rw [step_cons hx] at h
    rw [step_cons (hin.symm.trans hx)] at h'
    cases hrst : x.rst with
    | true =>
      rw [hrst, if_pos rfl] at h h'
      cases h
      cases h'
      exact ⟨rfl, rfl⟩
    | false =>
      rw [hrst, if_neg Bool.false_ne_true] at h h'
      exact exec_channel_congr (s := s.withInputs rest) (s' := s'.withInputs rest) hch hch' ⟨hmax, hwait, hformats⟩ h h'

/-- Settles O40: `exec_other_channel` for what is written, `exec_addressed_congr` for what is read. -/
theorem operationsTouchTheirOwnChannelOnly : Obligations.OperationsTouchTheirOwnChannelOnly :=
  ⟨fun _ _ _ _ _ hi ha hc h => exec_other_channel hi ha hc h,
    fun _ _ _ _ _ ha hc hmax hwait hformats h => exec_addressed_congr ha hc ⟨hmax, hwait, hformats⟩ h⟩

/-- Settles O21, by what can become of a channel that was there, and of one that was not. -/
theorem bufferWritesAreSetOrClear : Obligations.BufferWritesAreSetOrClear := by
  intro i s t h c ch' hc'
  refine ⟨fun ch hc => ?_, ?_, fun hnone => ?_⟩
  · obtain ⟨d, hd, hcases⟩ := exec_channel? h hc
    obtain rfl : d = ch' := Option.some.inj (hd.symm.trans hc')
    obtain rfl | ⟨rfl, rfl⟩ | ⟨es, hstep⟩ := hcases
    · exact .inl fun _ => rfl
    · obtain hsame | hclear := pollChannel_bufRead s.config c ch
      · exact .inl hsame
      · exact .inr (.inr ⟨.inl rfl, hclear⟩)
    · obtain hsame | hset | ⟨hi, hclear⟩ := hstep.bufRead
      · exact .inl hsame
      · exact .inr (.inl hset)
      · exact .inr (.inr ⟨.inr hi, hclear⟩)
  · rintro rfl
    exact exec_decode_bufRead h hc'
  · obtain ⟨l0, l1, cb, rfl, rfl⟩ := exec_new_channel h hnone hc'
    exact ⟨⟨l0, l1, cb, rfl⟩, fun _ => BitVec.getLsbD_zero⟩

/-- Settles O30: the other cells come into the classified channel unread, and what is delivered does not depend on them. -/
theorem uninterpretedBitsHaveNoEffect : Obligations.UninterpretedBitsHaveNoEffect := by
  intro c s ch bits' hc h
  have hdec : decodeChannel s.config c { ch with bits := bits' } = decodeChannel s.config c ch :=
    (congrArg (deliver c) (Channel.classify_withBits h)).trans (deliver_withBits c _ bits')
  have hc1 : ({ s with channels := s.channels.set c { ch with bits := bits' } } : State).channel? c =
      some { ch with bits := bits' } := State.channel?_complete_set_self hc _ s.outputs
  have hfin : ({ ch with bits := bits' } : Channel).finished = ch.finished := rfl
  rw [exec_decode_some hc1, exec_decode_some hc, hfin]
  simp only [hdec, List.set_set]
  rfl

end Sys2Proof.Machine
end

section
/-! SUPPORT. The uninterpreted bits of a frame and its fields: the frame decoder and the encoder undo each other on each row
of R71 (R72 to R75, R79). -/
namespace Sys2Proof

/-! ### Uninterpreted bits -/

/-- Bit `j` of the uninterpreted bits is the cell listed as number `j`. -/
theorem getLsbD_gather (n : Nat) (cell : Nat → Bool) (indices : List Nat) (j : Nat) :
    (gather n cell indices).getLsbD j = (decide (j < n) && indices[j]?.any cell) := by
  rw [gather, BitVec.getLsbD_ofNat]
  congr 1
  induction indices generalizing j with
  | nil => simp
  | cons i rest ih =>
    rw [List.foldr_cons, Nat.add_comm, ← Nat.bit_val]
    cases j with
    | zero => rw [Nat.testBit_bit_zero]; rfl
    | succ j => rw [Nat.testBit_bit_succ, ih]; rfl

/-- The uninterpreted bits are those of `x` when the listed cells hold them. -/
theorem gather_eq {n : Nat} {cell : Nat → Bool} {indices : List Nat} {x : BitVec n}
    (h : ∀ j < n, indices[j]?.any cell = x.getLsbD j) : gather n cell indices = x :=
  BitVec.eq_of_getLsbD_eq fun j hj => by rw [getLsbD_gather, h j hj, decide_eq_true hj, Bool.true_and]

/-! ### Fields within a frame -/

/-- A field's bits are found where the encoder put them, after the bits `a`. -/
theorem ofNat_extract_append {n : Nat} (a b : List Bool) (v : BitVec n) :
    BitVec.ofNat n (extract (cellOf (a ++ (fieldBits v ++ b))) a.length (a.length + n)) = v := by
  refine ofNat_extract_fieldBits v fun i hi => ?_
  rw [cellOf_append, if_neg (by omega), Nat.add_sub_cancel_left, cellOf_append, if_pos (by rwa [length_fieldBits]),
    cellOf_fieldBits v hi]

/-- A bit string is its cells in order. -/
theorem map_cellOf_range (bits : List Bool) : (List.range bits.length).map (cellOf bits) = bits := by
  refine List.ext_getElem (by simp) fun i _ hi => ?_
  simp [cellOf, List.getD, hi]

/-! ### Field assembly in numbers -/

/-- One more cell doubles what is there and adds the cell (R79). -/
theorem extract_succ_eq_two_mul_add (cell : Nat → Bool) (start n : Nat) :
    extract cell start (start + (n + 1)) = 2 * extract cell start (start + n) + (cell (start + n)).toNat := by
  rw [extract_succ, ← Nat.shiftLeft_add_eq_or_of_lt (Bool.toNat_lt _), Nat.shiftLeft_eq]
  omega

/-- A field is the sum of its cells, each at the weight of its distance from the end of the range (R80). -/
theorem extract_eq_sum (cell : Nat → Bool) (start n : Nat) :
    extract cell start (start + n) =
      (Finset.Ico start (start + n)).sum fun i => (cell i).toNat * 2 ^ (start + n - 1 - i) := by
  induction n with
  | zero => simp [extract_empty]
  | succ n ih =>
    have hdouble : ∀ i ∈ Finset.Ico start (start + n), (cell i).toNat * 2 ^ (start + n + 1 - 1 - i) =
        2 * ((cell i).toNat * 2 ^ (start + n - 1 - i)) := by
      intro i hi
      have hexp : start + n + 1 - 1 - i = start + n - 1 - i + 1 := by
        have := (Finset.mem_Ico.mp hi).2
        omega
      rw [hexp, Nat.pow_succ]
      ring
    rw [extract_succ_eq_two_mul_add, ih, ← Nat.add_assoc, Finset.sum_Ico_succ_top (Nat.le_add_right start n),
      Finset.mul_sum, Finset.sum_congr rfl hdouble]
    simp

/-! ### The three formats: the decoder undoes the encoder -/

theorem decodeFormat_corp1000Bits (c : Nat) (x : BitVec 3) (f : BitVec 12) (k : BitVec 20) :
    decodeFormat c rowCorp1000 (cellOf (corp1000Bits x f k)) = .corp1000 c x f k := by
  have hx : gather 3 (cellOf (corp1000Bits x f k)) [0, 1, 34] = x := gather_eq fun
    | 0, _ => rfl
    | 1, _ => rfl
    | 2, _ => rfl
  have hf : BitVec.ofNat 12 (extract (cellOf (corp1000Bits x f k)) 2 14) = f :=
    ofNat_extract_append [x.getLsbD 0, x.getLsbD 1] _ f
  have hk : BitVec.ofNat 20 (extract (cellOf (corp1000Bits x f k)) 14 34) = k :=
    ofNat_extract_append ([x.getLsbD 0, x.getLsbD 1] ++ fieldBits f) [x.getLsbD 2] k
  change Instr.corp1000 c _ _ _ = _
  rw [hx]
  exact congrArg₂ _ hf hk

theorem decodeFormat_w26Bits (c : Nat) (x : BitVec 2) (f : BitVec 8) (k : BitVec 16) :
    decodeFormat c rowW26 (cellOf (w26Bits x f k)) = .w26 c x f k := by
  have hx : gather 2 (cellOf (w26Bits x f k)) [0, 25] = x := gather_eq fun
    | 0, _ => rfl
    | 1, _ => rfl
  have hf : BitVec.ofNat 8 (extract (cellOf (w26Bits x f k)) 1 9) = f :=
    ofNat_extract_append [x.getLsbD 0] _ f
  have hk : BitVec.ofNat 16 (extract (cellOf (w26Bits x f k)) 9 25) = k :=
    ofNat_extract_append ([x.getLsbD 0] ++ fieldBits f) [x.getLsbD 1] k
  change Instr.w26 c _ _ _ = _
  rw [hx]
  exact congrArg₂ _ hf hk

theorem decodeFormat_w32Bits (c : Nat) (x : BitVec 4) (f : BitVec 12) (k : BitVec 16) :
    decodeFormat c rowW32 (cellOf (w32Bits x f k)) = .w32 c x f k := by
  have hx : gather 4 (cellOf (w32Bits x f k)) [0, 1, 2, 3] = x := gather_eq fun
    | 0, _ => rfl
    | 1, _ => rfl
    | 2, _ => rfl
    | 3, _ => rfl
  have hf : BitVec.ofNat 12 (extract (cellOf (w32Bits x f k)) 4 16) = f :=
    ofNat_extract_append [x.getLsbD 0, x.getLsbD 1, x.getLsbD 2, x.getLsbD 3] _ f
  have hk : BitVec.ofNat 16 (extract (cellOf (w32Bits x f k)) 16 32) = k := by
    have h := ofNat_extract_append ([x.getLsbD 0, x.getLsbD 1, x.getLsbD 2, x.getLsbD 3] ++ fieldBits f) [] k
    rwa [List.append_nil] at h
  change Instr.w32 c _ _ _ = _
  rw [hx]
  exact congrArg₂ _ hf hk

/-! ### The three formats: the encoder undoes the decoder -/

theorem corp1000Bits_of_cells (cell : Nat → Bool) :
    corp1000Bits (gather 3 cell [0, 1, 34]) (BitVec.ofNat 12 (extract cell 2 14)) (BitVec.ofNat 20 (extract cell 14 34)) =
      (List.range 35).map cell := by
  simp only [corp1000Bits, getLsbD_gather, fieldBits_ofNat_extract 12 cell 2, fieldBits_ofNat_extract 20 cell 14]
  rfl

theorem w26Bits_of_cells (cell : Nat → Bool) :
    w26Bits (gather 2 cell [0, 25]) (BitVec.ofNat 8 (extract cell 1 9)) (BitVec.ofNat 16 (extract cell 9 25)) =
      (List.range 26).map cell := by
  simp only [w26Bits, getLsbD_gather, fieldBits_ofNat_extract 8 cell 1, fieldBits_ofNat_extract 16 cell 9]
  rfl

theorem w32Bits_of_cells (cell : Nat → Bool) :
    w32Bits (gather 4 cell [0, 1, 2, 3]) (BitVec.ofNat 12 (extract cell 4 16)) (BitVec.ofNat 16 (extract cell 16 32)) =
      (List.range 32).map cell := by
  simp only [w32Bits, getLsbD_gather, fieldBits_ofNat_extract 12 cell 4, fieldBits_ofNat_extract 16 cell 16]
  rfl

/-- Whatever a row of R71 reads of its cells is a well-formed operation, and its encoding is those cells in order. -/
theorem encode_decodeFormat {row : FormatRow} (hrow : row ∈ formatTable) (c : Nat) (cell : Nat → Bool) :
    (decodeFormat c row cell).wellFormed = true ∧
      encode (decodeFormat c row cell) = some (.frame c ((List.range row.len).map cell)) := by
  simp only [formatTable, List.mem_cons, List.not_mem_nil, or_false] at hrow
  obtain rfl | rfl | rfl := hrow
  · exact ⟨rfl, congrArg (some ∘ Encoding.frame c) (corp1000Bits_of_cells cell)⟩
  · exact ⟨rfl, congrArg (some ∘ Encoding.frame c) (w26Bits_of_cells cell)⟩
  · exact ⟨rfl, congrArg (some ∘ Encoding.frame c) (w32Bits_of_cells cell)⟩

/-! ### The frame decoder, by the row that the length matches (R81) -/

theorem decode_frame_of_row {c : Nat} {bits : List Bool} {row : FormatRow}
    (h : lookupFormat formatTable bits.length = some row) :
    decode (.frame c bits) = .ok (decodeFormat c row (cellOf bits)) := by
  simp only [decode, decodeFrame, h]

/-- A frame has no row in the spec's table exactly when its length is none of the three. -/
theorem lookupFormat_eq_none_iff {frame : List Bool} :
    lookupFormat formatTable frame.length = none ↔ frameOfNoFormat frame = true := by
  refine ⟨fun h => ?_, lookupFormat_of_frameOfNoFormat⟩
  rw [lookupFormat_eq] at h
  split_ifs at h with h35 h26 h32
  simp [frameOfNoFormat, h35, h26, h32]

/-- An unsupported frame is well formed when it has from 1 to 100 bits and no row in the spec's table. -/
theorem wellFormed_unsupported_iff {c : Nat} {frame : List Bool} : (Instr.unsupported c frame).wellFormed = true ↔
    (0 < frame.length ∧ frame.length ≤ 100) ∧ lookupFormat formatTable frame.length = none := by
  simp [Instr.wellFormed, frameNonempty, frameFits, lookupFormat_eq_none_iff, and_assoc]

/-- With no row, the decoder accepts exactly the frames of 1 to 100 bits, as they stand. -/
theorem decode_frame_of_no_row {c : Nat} {bits : List Bool} {i : Instr}
    (h : lookupFormat formatTable bits.length = none) :
    decode (.frame c bits) = .ok i ↔ (0 < bits.length ∧ bits.length ≤ 100) ∧ i = .unsupported c bits := by
  simp only [decode, decodeFrame, h, frameNonempty, frameFits, decide_eq_true_eq]
  split_ifs with hpos hfits
  · simp [hpos, hfits, eq_comm]
  · simp [hfits]
  · simp [hpos]

/-- A bit string that decodes gives a well-formed operation, and encoding that gives the bit string back. -/
theorem encode_of_decode_frame {c : Nat} {bits : List Bool} {i : Instr} (h : decode (.frame c bits) = .ok i) :
    i.wellFormed = true ∧ encode i = some (.frame c bits) := by
  cases hrow : lookupFormat formatTable bits.length with
  | some row =>
    rw [decode_frame_of_row hrow] at h
    obtain rfl := Except.ok.inj h
    obtain ⟨hmem, hlen⟩ := lookupFormat_some hrow
    obtain ⟨hwf, henc⟩ := encode_decodeFormat hmem c (cellOf bits)
    rw [hlen, map_cellOf_range] at henc
    exact ⟨hwf, henc⟩
  | none =>
    obtain ⟨hlen, rfl⟩ := (decode_frame_of_no_row hrow).mp h
    exact ⟨wellFormed_unsupported_iff.mpr ⟨hlen, hrow⟩, rfl⟩

/-- Exactly the bit strings of 1 to 100 bits decode (R82 to R84). -/
theorem exists_decode_frame_iff {c : Nat} {bits : List Bool} :
    (∃ i, decode (.frame c bits) = .ok i) ↔ 0 < bits.length ∧ bits.length ≤ 100 := by
  cases hrow : lookupFormat formatTable bits.length with
  | some row =>
    have hlen : 0 < bits.length ∧ bits.length ≤ 100 := by
      rw [lookupFormat_eq] at hrow
      split_ifs at hrow <;> omega
    exact iff_of_true ⟨_, decode_frame_of_row hrow⟩ hlen
  | none => simp [decode_frame_of_no_row hrow]

end Sys2Proof
end

section
/-! SUPPORT. A frame on its way (R86, R124, R174): the edges of a bit string on one channel, the polls of the inactivity
window after them, and the report on the frame that the window's last poll decodes. -/
namespace Sys2Proof.Machine

/-! ### Runs of several steps -/

theorem trace_succ {n : Nat} {s t u : State} {es : List DecodeEvent} (hstep : step s = .next t)
    (h : trace n t = some (u, es)) : trace (n + 1) s = some (u, t.outputs.events ++ es) := by
  simp only [trace, hstep, h, Option.map_some]

/-- A run and a run from where it ends make one run, the events in order. -/
theorem trace_add {m n : Nat} {s t u : State} {es fs : List DecodeEvent} (h : trace m s = some (t, es))
    (h' : trace n t = some (u, fs)) : trace (m + n) s = some (u, es ++ fs) := by
  induction m generalizing s es with
  | zero =>
    cases h
    rwa [Nat.zero_add]
  | succ m ih =>
    cases hstep : step s with
    | fault f => cases f
    | refused r => simp [trace, hstep] at h
    | next v =>
      simp only [trace, hstep, Option.map_eq_some_iff] at h
      obtain ⟨⟨t', gs⟩, hrun, heq⟩ := h
      cases heq
      rw [Nat.succ_add, trace_succ hstep (ih hrun), List.append_assoc]

theorem eventsOf_append (c : Nat) (es fs : List DecodeEvent) : eventsOf c (es ++ fs) = eventsOf c es ++ eventsOf c fs :=
  List.filter_append ..

/-! ### One captured bit -/

/-- The edge that carries `b` on its channel (R110, R111). -/
def Channel.capture (cfg : Config) (ch : Channel) (b : Bool) : Channel :=
  if b then ch.captureOne cfg else ch.captureZero cfg

theorem step_edgeSample {s : State} {c : Nat} {ch : Channel} {b : Bool} {rest : List PortSample}
    (hin : s.inputs = edgeSample c b :: rest) (hc : s.channel? c = some ch) :
    step s = .next ((s.withInputs rest).complete (s.channels.set c (ch.capture s.config b)) ⟨none, []⟩) := by
  rw [step_cons hin]
  cases b <;> exact onChannel_some (s := s.withInputs rest) hc _

/-- Either edge on its channel, every field but the buffer: the bit is counted below the cap and the countdown restarts
(R112, R113). -/
theorem Channel.capture_eq (cfg : Config) (ch : Channel) (b : Bool) : ch.capture cfg b = { ch with
    bits := (ch.capture cfg b).bits
    bitCount := if ch.bitCount.toNat < cfg.maxBits.toNat then ch.bitCount + 1#7 else ch.bitCount
    frameReady := false
    inactivityCounter := cfg.wait } := by
  cases b with
  | true => rw [Channel.capture, if_pos rfl, Channel.captureOne_eq]
  | false => rw [Channel.capture, if_neg Bool.false_ne_true, Channel.captureZero_eq]

theorem Channel.capture_identity (cfg : Config) (ch : Channel) (b : Bool) :
    (ch.capture cfg b).line0 = ch.line0 ∧ (ch.capture cfg b).line1 = ch.line1 ∧
      (ch.capture cfg b).cbPresent = ch.cbPresent := by
  rw [Channel.capture_eq]
  exact ⟨rfl, rfl, rfl⟩

theorem Channel.bitCount_capture (cfg : Config) (ch : Channel) (b : Bool) : (ch.capture cfg b).bitCount =
    if ch.bitCount.toNat < cfg.maxBits.toNat then ch.bitCount + 1#7 else ch.bitCount :=
  congrArg Channel.bitCount (ch.capture_eq cfg b)

/-- The cell at `bitCount` gets the bit, below the cap; no other cell changes. -/
theorem Channel.bufRead_capture (cfg : Config) (ch : Channel) (b : Bool) (j : Nat) : (ch.capture cfg b).bufRead j =
    (ch.bufRead j || (b && decide (ch.bitCount.toNat < cfg.maxBits.toNat ∧ j = ch.bitCount.toNat))) := by
  cases b with
  | true =>
    refine (ch.bufRead_captureOne cfg j).trans ?_
    split_ifs with h <;> simp [h]
  | false => simpa [Channel.capture] using ch.bufRead_captureZero cfg j

theorem Channel.FrameInv.capture {cfg : Config} {ch : Channel} (hcfg : cfg.legal = true) (h : ch.FrameInv cfg)
    (b : Bool) : (ch.capture cfg b).FrameInv cfg := by
  have hinv : (ch.capture cfg b).Inv cfg := by
    cases b with
    | true => exact h.inv_captureOne hcfg
    | false => exact h.inv_captureZero hcfg
  exact (Channel.inv_iff.mp hinv).1

/-- The held frame grows by the bit, and stays as it is at the cap (R84, R112). -/
theorem Channel.FrameInv.frame_capture {cfg : Config} {ch : Channel} (h : ch.FrameInv cfg) (b : Bool) :
    (ch.capture cfg b).frame = (ch.frame ++ [b]).take cfg.maxBits.toNat := by
  by_cases hroom : ch.bitCount.toNat < cfg.maxBits.toNat
  · have hlast : ch.bufRead ch.bitCount.toNat = false :=
      h.zeroAbove _ (by have := cfg.maxBits.isLt; omega) le_rfl
    have hbelow : ∀ j ∈ List.range ch.bitCount.toNat, (ch.capture cfg b).bufRead j = ch.bufRead j := by
      intro j hj
      simp [Channel.bufRead_capture, (List.mem_range.mp hj).ne]
    rw [List.take_of_length_le (by simpa [ch.length_frame] using hroom), Channel.frame, Channel.bitCount_capture,
      if_pos hroom, bitCount_succ_toNat hroom, List.range_succ, List.map_append, List.map_congr_left hbelow]
    simp [Channel.frame, Channel.bufRead_capture, hroom, hlast]
  · have hfull : ch.frame.length = cfg.maxBits.toNat := by
      rw [ch.length_frame]
      exact Nat.le_antisymm h.bitCount_le (Nat.not_lt.mp hroom)
    have hread : (ch.capture cfg b).bufRead = ch.bufRead := funext fun j => by simp [Channel.bufRead_capture, hroom]
    rw [← hfull, List.take_left, Channel.frame, Channel.bitCount_capture, if_neg hroom, hread, Channel.frame]

/-! ### A captured bit string -/

/-- A bit string on its channel, bit by bit. -/
def Channel.captureAll (cfg : Config) (ch : Channel) (bits : List Bool) : Channel := bits.foldl (Channel.capture cfg) ch

/-- The edges of a bit string capture it on their channel, and no event comes of them. -/
theorem trace_edges {s : State} {c : Nat} {ch : Channel} {bits : List Bool} {rest : List PortSample}
    (hin : s.inputs = bits.map (edgeSample c) ++ rest) (hc : s.channel? c = some ch) :
    ∃ t, trace bits.length s = some (t, []) ∧ t.inputs = rest ∧ t.config = s.config ∧
      t.channel? c = some (ch.captureAll s.config bits) := by
  induction bits generalizing s ch with
  | nil => exact ⟨s, rfl, hin, rfl, hc⟩
  | cons b bits ih =>
    obtain ⟨t, hrun, hrest, hcfg, ht⟩ := ih (s := (s.withInputs _).complete _ ⟨none, []⟩) rfl
      (State.channel?_complete_set_self (s := s.withInputs _) hc (ch.capture s.config b) ⟨none, []⟩)
    exact ⟨t, trace_succ (step_edgeSample hin hc) hrun, hrest, hcfg, ht⟩

theorem Channel.captureAll_identity (cfg : Config) (ch : Channel) (bits : List Bool) :
    (ch.captureAll cfg bits).line0 = ch.line0 ∧ (ch.captureAll cfg bits).line1 = ch.line1 ∧
      (ch.captureAll cfg bits).cbPresent = ch.cbPresent := by
  induction bits generalizing ch with
  | nil => exact ⟨rfl, rfl, rfl⟩
  | cons b bits ih =>
    obtain ⟨h0, h1, hcb⟩ := ih (ch.capture cfg b)
    obtain ⟨k0, k1, kcb⟩ := ch.capture_identity cfg b
    exact ⟨h0.trans k0, h1.trans k1, hcb.trans kcb⟩

/-- After at least one bit the countdown stands at `WAIT`, by the last of them. -/
theorem Channel.captureAll_restarted (cfg : Config) (ch : Channel) {bits : List Bool} (h : bits ≠ []) :
    (ch.captureAll cfg bits).frameReady = false ∧ (ch.captureAll cfg bits).inactivityCounter = cfg.wait := by
  rw [← List.dropLast_append_getLast h, Channel.captureAll, List.foldl_append, List.foldl_cons, List.foldl_nil,
    Channel.capture_eq]
  exact ⟨rfl, rfl⟩

theorem Channel.FrameInv.captureAll {cfg : Config} {ch : Channel} (hcfg : cfg.legal = true) (h : ch.FrameInv cfg)
    (bits : List Bool) : (ch.captureAll cfg bits).FrameInv cfg := by
  induction bits generalizing ch with
  | nil => exact h
  | cons b bits ih => exact ih (h.capture hcfg b)

/-- Of what is capped again, nothing beyond the cap is needed. -/
theorem take_take_append {α : Type} (n : Nat) (l r : List α) : (l.take n ++ r).take n = (l ++ r).take n := by
  have hlen : n - (l.take n).length = n - l.length := by
    rw [List.length_take]
    omega
  rw [List.take_append, List.take_append, List.take_take, Nat.min_self, hlen]

/-- The held frame is what was there with the bit string after it, capped at `MAX_BITS` (R84). -/
theorem Channel.FrameInv.frame_captureAll {cfg : Config} {ch : Channel} (hcfg : cfg.legal = true) (h : ch.FrameInv cfg)
    (bits : List Bool) : (ch.captureAll cfg bits).frame = (ch.frame ++ bits).take cfg.maxBits.toNat := by
  induction bits generalizing ch with
  | nil =>
    rw [List.append_nil, List.take_of_length_le (by rw [ch.length_frame]; exact h.bitCount_le)]
    rfl
  | cons b bits ih =>
    refine (ih (h.capture hcfg b)).trans ?_
    rw [h.frame_capture, take_take_append, List.append_assoc, List.singleton_append]

/-- From an empty buffer the held frame is the bit string, capped at `MAX_BITS`, and the count is its length. -/
theorem Channel.FrameInv.captureAll_of_empty {cfg : Config} {ch : Channel} (hcfg : cfg.legal = true)
    (h : ch.FrameInv cfg) (hbc : ch.bitCount = 0#7) (bits : List Bool) :
    (ch.captureAll cfg bits).frame = bits.take cfg.maxBits.toNat ∧
      (ch.captureAll cfg bits).bitCount.toNat = min bits.length cfg.maxBits.toNat := by
  have hempty : ch.frame = [] := List.length_eq_zero_iff.mp (by rw [ch.length_frame, hbc]; rfl)
  have hframe : (ch.captureAll cfg bits).frame = bits.take cfg.maxBits.toNat := by
    rw [h.frame_captureAll hcfg, hempty, List.nil_append]
  refine ⟨hframe, ?_⟩
  rw [← Channel.length_frame, hframe, List.length_take, Nat.min_comm]

/-! ### The inactivity window -/

/-- A tick that does not end the window (R122, R123). -/
theorem pollChannel_tick {ch : Channel} (cfg : Config) (c : Nat) (hr : ch.frameReady = false)
    (h : countDown ch.inactivityCounter ≠ 0#12) :
    pollChannel cfg c ch = ({ ch with inactivityCounter := countDown ch.inactivityCounter }, []) := by
  have hscan : ch.scan = { ch with inactivityCounter := countDown ch.inactivityCounter } := by
    rw [Channel.scan_running hr, decide_eq_false h, ← hr]
  have hfin : ch.scan.finished = false := by simp [hscan, Channel.finished, hr]
  rw [pollChannel_unfinished hfin, hscan]

/-- A channel whose countdown has run out (R123). -/
def Channel.expired (ch : Channel) : Channel := { ch with inactivityCounter := 0#12, frameReady := true }

/-- The tick that ends the window decodes the frame in the same pass (R123, R150). -/
theorem pollChannel_lastTick {ch : Channel} (cfg : Config) (c : Nat) (hr : ch.frameReady = false)
    (hbc : ch.bitCount ≠ 0#7) :
    pollChannel cfg c { ch with inactivityCounter := 1#12 } = decodeChannel cfg c ch.expired := by
  have hscan : ({ ch with inactivityCounter := 1#12 } : Channel).scan = ch.expired := by
    have hdown : countDown 1#12 = 0#12 := by decide
    simp [Channel.scan, Channel.expired, hr, hdown]
  have hfin : ch.expired.finished = true := Channel.finished_iff.mpr ⟨hbc, rfl⟩
  rw [pollChannel_finished (hscan ▸ hfin), hscan]

/-- A `POLL` on the ports does its part of the pass on each registered channel. -/
theorem step_pollSample {s : State} {c : Nat} {ch : Channel} {rest : List PortSample}
    (hin : s.inputs = pollSample :: rest) (hc : s.channel? c = some ch) :
    ∃ t, step s = .next t ∧ t.inputs = rest ∧ t.config = s.config ∧
      t.channel? c = some (pollChannel s.config c ch).1 ∧ eventsOf c t.outputs.events = (pollChannel s.config c ch).2 := by
  have hpoll := exec_poll (s.withInputs rest)
  refine ⟨_, (step_cons hin).trans hpoll, rfl, rfl, ?_, exec_poll_eventsOf (s := s.withInputs rest) hpoll hc⟩
  rw [exec_poll_channel? hpoll]
  exact congrArg (Option.map _) hc

/-- `n` polls on a countdown that stands `n` above `k`, not 0: it stands at `k` then, and no event has come. -/
theorem trace_polls_within_window {n : Nat} {k : Countdown} {s : State} {c : Nat} {ch : Channel} {rest : List PortSample}
    (hin : s.inputs = List.replicate n pollSample ++ rest) (hc : s.channel? c = some ch) (hr : ch.frameReady = false)
    (hk : k ≠ 0#12) (hcount : ch.inactivityCounter.toNat = n + k.toNat) :
    ∃ t es, trace n s = some (t, es) ∧ t.inputs = rest ∧ t.config = s.config ∧ eventsOf c es = [] ∧
      t.channel? c = some { ch with inactivityCounter := k } := by
  induction n generalizing s ch with
  | zero =>
    obtain rfl : ch.inactivityCounter = k := BitVec.eq_of_toNat_eq (by rw [hcount, Nat.zero_add])
    exact ⟨s, [], rfl, hin, rfl, rfl, hc⟩
  | succ n ih =>
    have hdown : (countDown ch.inactivityCounter).toNat = n + k.toNat := by
      rw [toNat_countDown, hcount]
      omega
    have hne : countDown ch.inactivityCounter ≠ 0#12 := by
      intro h0
      rw [h0] at hdown
      exact hk (BitVec.eq_of_toNat_eq (by simp at hdown ⊢; omega))
    obtain ⟨v, hstep, hvin, hvcfg, hvc, hvev⟩ := step_pollSample hin hc
    rw [pollChannel_tick s.config c hr hne] at hvc hvev
    obtain ⟨t, es, hrun, htin, htcfg, htev, htc⟩ := ih hvin hvc hr hdown
    exact ⟨t, _, trace_succ hstep hrun, htin, htcfg.trans hvcfg, by rw [eventsOf_append, hvev, htev]; rfl, htc⟩

/-- The polls of a whole window decode the frame, in the last of them and once (R124). -/
theorem trace_polls_of_window {s : State} {c : Nat} {ch : Channel} {rest : List PortSample}
    (hin : s.inputs = List.replicate ch.inactivityCounter.toNat pollSample ++ rest) (hc : s.channel? c = some ch)
    (hr : ch.frameReady = false) (hbc : ch.bitCount ≠ 0#7) (hcount : ch.inactivityCounter ≠ 0#12) :
    ∃ t es, trace ch.inactivityCounter.toNat s = some (t, es) ∧ t.inputs = rest ∧
      eventsOf c es = (decodeChannel s.config c ch.expired).2 ∧
      t.channel? c = some (decodeChannel s.config c ch.expired).1 := by
  have hpos : ch.inactivityCounter.toNat ≠ 0 := fun h => hcount (BitVec.eq_of_toNat_eq h)
  obtain ⟨n, hn⟩ := Nat.exists_eq_succ_of_ne_zero hpos
  rw [hn, List.replicate_succ', List.append_assoc] at hin
  obtain ⟨v, es, hrun, hvin, hvcfg, hvev, hvc⟩ := trace_polls_within_window (k := 1#12) hin hc hr (by decide) hn
  obtain ⟨t, hstep, htin, -, htc, htev⟩ := step_pollSample hvin hvc
  rw [hvcfg, pollChannel_lastTick s.config c hr hbc] at htc htev
  refine ⟨t, es ++ (t.outputs.events ++ []), ?_, htin, ?_, htc⟩
  · rw [hn]
    exact trace_add hrun (trace_succ (n := 0) hstep rfl)
  · rw [eventsOf_append, hvev, List.append_nil, htev, List.nil_append]

/-! ### The report on a decoded frame -/

/-- In a legal block the codes and the verdict on a held frame are the report on its bits alone (R174). -/
theorem Channel.classify_report {cfg : Config} {ch : Channel} (hcfg : cfg.legal = true)
    (hcodes : ch.facilityCode = 0#12 ∧ ch.cardCode = 0#20) :
    ((ch.classify cfg.formats).facilityCode, (ch.classify cfg.formats).cardCode,
      (ch.classify cfg.formats).formatUnsupported) = report cfg.formats ch.frame := by
  unfold report
  rw [ch.length_frame]
  cases hrow : lookupFormat cfg.formats ch.bitCount.toNat with
  | none => simp [Channel.classify_none hrow, hcodes]
  | some row =>
    obtain ⟨hlen, hfits⟩ := Config.legal_lookupFormat hcfg hrow
    obtain ⟨⟨-, hfe, -⟩, ⟨-, hce, -⟩, -⟩ := FormatRow.fits_iff.mp hfits
    rw [hlen] at hfe hce
    simp [Channel.classify_some hrow, ch.extract_eq_extract_frame hfe, ch.extract_eq_extract_frame hce]

/-- What a channel with a handler emits when it decodes the frame it holds (R137, R172). -/
theorem decodeChannel_event {cfg : Config} {ch : Channel} (c : Nat) (hcfg : cfg.legal = true)
    (hcodes : ch.facilityCode = 0#12 ∧ ch.cardCode = 0#20) (hcb : ch.cbPresent = true) : (decodeChannel cfg c ch).2 = [
      { handle := c, line0 := ch.line0, line1 := ch.line1, length := ch.bitCount,
        facilityCode := (report cfg.formats ch.frame).1, cardCode := (report cfg.formats ch.frame).2.1,
        unsupported := (report cfg.formats ch.frame).2.2 }] := by
  obtain ⟨h0, h1, -, hbc, -, -, hcb', -⟩ := ch.classify_frame cfg.formats
  rw [decodeChannel_snd, Channel.emit, hcb', if_pos hcb, Channel.event, h0, h1, hbc, ← Channel.classify_report hcfg hcodes]

end Sys2Proof.Machine
end

section
/-! Settles the statements of 30_encoding.md. -/
namespace Sys2Proof.Machine

/-- Settles O5: a code by its case of `decodeOp`, a frame by the row that its length matches, which undoes the encoder. -/
theorem decodeOfEncodeIsTheOperation : Obligations.DecodeOfEncodeIsTheOperation := by
  constructor
  · intro i e hwf he
    cases i with
    | corp1000 c x f k =>
      cases he
      rw [decode_frame_of_row (row := rowCorp1000) (by rw [length_corp1000Bits]; rfl), decodeFormat_corp1000Bits]
    | w26 c x f k =>
      cases he
      rw [decode_frame_of_row (row := rowW26) (by rw [length_w26Bits]; rfl), decodeFormat_w26Bits]
    | w32 c x f k =>
      cases he
      rw [decode_frame_of_row (row := rowW32) (by rw [length_w32Bits]; rfl), decodeFormat_w32Bits]
    | unsupported c frame =>
      cases he
      obtain ⟨hlen, hrow⟩ := wellFormed_unsupported_iff.mp hwf
      exact (decode_frame_of_no_row hrow).mpr ⟨hlen, rfl⟩
    | nop | edge0 | edge1 | poll | reg | reserved5 | reserved6 | reserved7 => cases he; rfl
    | scan | decode => cases he
  · intro i
    cases i <;> simp [encode]

/-- Settles O6, by the row that the length matches, or none. -/
theorem encodeOfDecodedFrameIsTheFrame : Obligations.EncodeOfDecodedFrameIsTheFrame :=
  fun _ _ => ⟨fun _ h => encode_of_decode_frame h, exists_decode_frame_iff⟩

/-- Settles O28: the held frame decodes to an operation that is encoded as that frame, hence performs it. -/
theorem decodePerformsTheHeldFrame : Obligations.DecodePerformsTheHeldFrame := by
  intro c s ch hc hready hbc hle
  have hfin : ch.finished = true := Channel.finished_iff.mpr ⟨hbc, hready⟩
  have hpos : ch.bitCount.toNat ≠ 0 := fun h => hbc (BitVec.eq_of_toNat_eq h)
  obtain ⟨i, hi⟩ := exists_decode_frame_iff (c := c) (bits := ch.frame).mpr (by rw [ch.length_frame]; omega)
  obtain ⟨-, henc⟩ := encode_of_decode_frame hi
  have hexec := (exec_of_encode_frame henc s).trans (onFrame_held hc hfin rfl)
  refine ⟨i, hi, ?_, _, hexec⟩
  rw [hexec, exec_decode_some hc, if_pos hfin]
  rfl

/-- Settles O8: an empty or reversed range has no cell; otherwise the sum by induction on the number of cells. -/
theorem fieldAssemblyClosedForm : Obligations.FieldAssemblyClosedForm := by
  intro cell start stop
  refine ⟨?_, extract_lt_two_pow cell start stop⟩
  rcases Nat.le_total stop start with h | h
  · rw [extract_of_le cell h, Finset.Ico_eq_empty_of_le h, Finset.sum_empty]
  · obtain ⟨n, rfl⟩ := Nat.exists_eq_add_of_le h
    exact extract_eq_sum cell start n

/-- Settles O3: each code selects its own branch of `decodeOp`, which reads that operation's ports only. -/
theorem operationCodesDecode : Obligations.OperationCodesDecode :=
  fun _ _ _ _ => ⟨rfl, rfl, rfl, rfl, rfl, rfl, rfl, rfl⟩

/-- Settles O4, by running the decoder on the written-out frames. -/
theorem frameWordsDecodeToTheirFields : Obligations.FrameWordsDecodeToTheirFields := by
  unfold Obligations.FrameWordsDecodeToTheirFields
  decide

/-- Settles O7: what a search for the length finds in any table, and in the table of R71 the four cases of a length. -/
theorem formatLookupIsExactMatch : Obligations.FormatLookupIsExactMatch := by
  refine ⟨fun formats n => ⟨fun row => lookupFormat_some, by simp [lookupFormat]⟩, fun n => ?_⟩
  rw [lookupFormat_eq]
  split_ifs with h35 h26 h32
  · simp [h35, rowCorp1000]
  · simp [h26, rowW26]
  · simp [h32, rowW32]
  · simp [h35, h26, h32]

/-- Settles O9: `NOP` writes the outputs and nothing else. -/
theorem nopChangesNoState : Obligations.NopChangesNoState := fun _ => rfl

/-- Settles O10: the three arms of a reserved code answer its refusal, in every state. -/
theorem reservedCodesAreRefused : Obligations.ReservedCodesAreRefused := fun _ => ⟨rfl, rfl, rfl⟩

/-- Settles O37: the edges leave the capped string in the channel with the countdown at `WAIT`, the polls of that window
decode it once, and the event is the report on its bits. -/
theorem everyTransmittedFrameIsReportedOnce : Obligations.EveryTransmittedFrameIsReportedOnce := by
  intro c s ch sent rest hcfg hc hinv hbc hcb hsent hin
  obtain ⟨hwait, hmax, -⟩ := Config.legal_iff.mp hcfg
  obtain ⟨hframe, -, -⟩ := Channel.inv_iff.mp hinv
  obtain ⟨v, hedges, hvin, hvcfg, hvc⟩ := trace_edges hin hc
  obtain ⟨hheld, hlen⟩ := hframe.captureAll_of_empty hcfg hbc sent
  have hcodes := (hframe.captureAll hcfg sent).codes
  obtain ⟨h0, h1, hcb'⟩ := ch.captureAll_identity s.config sent
  obtain ⟨hr, hcount⟩ := ch.captureAll_restarted s.config hsent
  generalize ch.captureAll s.config sent = d at hvc hheld hlen hcodes h0 h1 hcb' hr hcount
  have hbc' : d.bitCount ≠ 0#7 := by
    intro h
    have hpos := List.length_pos_iff.mpr hsent
    simp only [h, BitVec.toNat_ofNat] at hlen
    omega
  have hcount' : d.inactivityCounter ≠ 0#12 := by
    intro h
    simp [← hcount, h] at hwait
  rw [← hcount] at hvin
  obtain ⟨t, es, hpolls, htin, htev, htc⟩ := trace_polls_of_window hvin hvc hr hbc' hcount'
  rw [hcount] at hpolls
  rw [hvcfg] at htev htc
  refine ⟨t, [] ++ es, trace_add hedges hpolls, htin, ?_, _, htc, ?_, ?_, ?_⟩
  · have hlength : d.bitCount = BitVec.ofNat 7 (min sent.length s.config.maxBits.toNat) := by simp [← hlen]
    rw [List.nil_append, htev, decodeChannel_event c hcfg (ch := d.expired) hcodes (hcb'.trans hcb)]
    change [DecodeEvent.mk c d.line0 d.line1 d.bitCount (report _ d.frame).1 (report _ d.frame).2.1
      (report _ d.frame).2.2] = _
    rw [h0, h1, hlength, hheld]
  · have hexpired : d.expired.CountdownInv s.config := ⟨Nat.zero_le _, iff_of_true rfl rfl⟩
    exact hexpired.inv_decodeChannel c
  · rw [decodeChannel_fst]
  · rw [decodeChannel_fst]
    rfl

end Sys2Proof.Machine
end

section
/-! SUPPORT. An operation on a channel never issued (R107 d), the two checks of `REG` and its three answers (R101, R105), a
registry with one more channel, and the next `POLL` on it (R106). -/
namespace Sys2Proof.Machine

/-! ### A channel never issued -/

theorem onFrame_none {c : Nat} {s : State} (h : s.channel? c = none) (frame : List Bool) :
    onFrame c frame s = .refused (.channelNotRegistered c) := by
  simp [onFrame, h]

theorem exec_decode_none {c : Nat} {s : State} (h : s.channel? c = none) :
    exec (.decode c) s = .refused (.channelNotRegistered c) := by
  change execDecode c s = _
  simp [execDecode, h]

/-- Every operation looks its channel up before it does anything else. -/
theorem exec_addressed_none {i : Instr} {c : Nat} {s : State} (ha : addressee i = some c) (h : s.channel? c = none) :
    exec i s = .refused (.channelNotRegistered c) := by
  cases i with
  | corp1000 | w26 | w32 | unsupported => cases ha; exact onFrame_none h _
  | edge0 | edge1 | scan => cases ha; exact onChannel_none h _
  | decode => cases ha; exact exec_decode_none h
  | nop | poll | reg | reserved5 | reserved6 | reserved7 => cases ha

/-! ### The checks of `REG`, and its answers -/

theorem State.capacityExceeded_iff {s : State} :
    s.capacityExceeded = true ↔ s.config.cap ≠ 0 ∧ s.numReaders = s.config.cap.val := by
  simp [State.capacityExceeded]

theorem State.physicallyFull_iff {s : State} : s.physicallyFull = true ↔
    s.config.cap = 0 ∧ ∃ n, s.config.physicalChannels = some n ∧ n ≤ s.numReaders := by
  cases h : s.config.physicalChannels <;> simp [State.physicallyFull, h]

/-- The answer at the cap: the outputs are written and nothing else (R161). -/
theorem exec_reg_of_capacityExceeded {s : State} (h : s.capacityExceeded = true) (l0 l1 : LineId) (cb : Bool) :
    exec (.reg l0 l1 cb) s = .next (s.withOutputs ⟨some .capacityExceeded, []⟩) :=
  if_pos h

theorem exec_reg_of_physicallyFull {s : State} (hexc : ¬ s.capacityExceeded = true) (hfull : s.physicallyFull = true)
    (l0 l1 : LineId) (cb : Bool) : exec (.reg l0 l1 cb) s = .refused .beyondPhysicalChannels :=
  (if_neg hexc).trans (if_pos hfull)

theorem exec_reg_of_room {s : State} (hexc : ¬ s.capacityExceeded = true) (hfull : ¬ s.physicallyFull = true)
    (l0 l1 : LineId) (cb : Bool) : exec (.reg l0 l1 cb) s =
      .next (s.complete (s.channels ++ [Channel.registered s.config l0 l1 cb]) ⟨some (.ok s.numReaders), []⟩) :=
  (if_neg hexc).trans (if_neg hfull)

/-- A `REG` that answers `Ok` appended the new channel. -/
theorem exec_reg_ok {s t : State} {l0 l1 : LineId} {cb : Bool} {n : Nat} (h : exec (.reg l0 l1 cb) s = .next t)
    (hok : t.outputs.regResult = some (.ok n)) :
    t = s.complete (s.channels ++ [Channel.registered s.config l0 l1 cb]) ⟨some (.ok s.numReaders), []⟩ := by
  obtain ⟨-, hreg⟩ | ⟨-, -, hreg⟩ | ⟨-, -, hreg⟩ := execReg_cases l0 l1 cb s
  · cases hreg.symm.trans h
    cases hok
  · cases hreg.symm.trans h
  · cases hreg.symm.trans h
    rfl

theorem State.regErr_iff {s : State} : s.regErr = true ↔ s.outputs.regResult = some .capacityExceeded :=
  decide_eq_true_iff

/-- `reg_err` is the answer of a `REG` at the cap, and of no other operation (R161). -/
theorem exec_regErr {i : Instr} {s t : State} (h : exec i s = .next t) (herr : t.regErr = true) :
    (∃ l0 l1 cb, i = .reg l0 l1 cb) ∧ s.capacityExceeded = true := by
  have hres := State.regErr_iff.mp herr
  rcases exec_next h with ⟨-, rfl⟩ | ⟨-, rfl⟩ | ⟨l0, l1, cb, hi, ⟨hexc, -⟩ | ⟨-, -, rfl⟩⟩ | ⟨_, _, _, _, -, -, -, rfl⟩
  · cases hres
  · cases hres
  · exact ⟨⟨l0, l1, cb, hi⟩, hexc⟩
  · cases hres
  · cases hres

/-! ### A registry with one more channel -/

/-- The earlier channels are as they were (R106). -/
theorem State.channel?_complete_append_lt {s : State} {c : Nat} (h : c < s.numReaders) (ch : Channel) (o : Outputs) :
    (s.complete (s.channels ++ [ch]) o).channel? c = s.channel? c :=
  List.getElem?_append_left h

/-- The new channel's index is the old `numReaders` (R104). -/
theorem State.channel?_complete_append_self (s : State) (ch : Channel) (o : Outputs) :
    (s.complete (s.channels ++ [ch]) o).channel? s.numReaders = some ch :=
  List.getElem?_concat_length

/-- The pass reaches a channel at the end of the registry after all the others, which it treats as without it (R151). -/
theorem pollFrom_concat (cfg : Config) (c : Nat) (chs : List Channel) (ch : Channel) :
    pollFrom cfg c (chs ++ [ch]) = pollFrom cfg c chs ++ [pollChannel cfg (c + chs.length) ch] := by
  induction chs generalizing c with
  | nil => rfl
  | cons ch' rest ih =>
    have hidx : c + 1 + rest.length = c + (rest.length + 1) := by omega
    simp only [List.cons_append, pollFrom, ih, List.length_cons, hidx]

/-- The first tick of a new channel: `WAIT` is at least 2, so it does not end the countdown (R8, R157 c). -/
theorem pollChannel_registered {cfg : Config} (hcfg : cfg.legal = true) (c : Nat) (l0 l1 : LineId) (cb : Bool) :
    pollChannel cfg c (Channel.registered cfg l0 l1 cb) =
      ({ Channel.registered cfg l0 l1 cb with inactivityCounter := countDown cfg.wait }, []) := by
  obtain ⟨hwait, -⟩ := Config.legal_iff.mp hcfg
  have hne : countDown cfg.wait ≠ 0#12 := by
    intro h
    have hnat := toNat_countDown cfg.wait
    simp only [h, BitVec.toNat_ofNat] at hnat
    omega
  exact pollChannel_tick cfg c rfl hne

end Sys2Proof.Machine
end

section
/-! Settles the statements of 40_reader_registry.md. -/
namespace Sys2Proof.Machine

/-- Settles O11: an index at or above `numReaders` names no channel, and that is what each operation looks up first. -/
theorem operationsOnUnissuedChannelsAreRefused : Obligations.OperationsOnUnissuedChannelsAreRefused :=
  fun _ _ _ ha hge => exec_addressed_none ha (State.channel?_none.mpr hge)

/-- Settles O15, by the answer of `REG` at the cap and by the operations that can answer `reg_err`. -/
theorem capacityExceededChangesNoState : Obligations.CapacityExceededChangesNoState := by
  refine ⟨fun l0 l1 cb s hcap hnum => ?_, fun i s t h herr => ?_⟩
  · exact exec_reg_of_capacityExceeded (State.capacityExceeded_iff.mpr ⟨hcap, hnum⟩) l0 l1 cb
  · obtain ⟨hi, hexc⟩ := exec_regErr h herr
    exact ⟨hi, State.capacityExceeded_iff.mp hexc⟩

/-- Settles O17: the new channel stands at the end of the registry, where the pass comes to it last, and its first tick
leaves it armed and emits nothing. -/
theorem regDuringOperationJoinsTheNextPoll : Obligations.RegDuringOperationJoinsTheNextPoll := by
  intro l0 l1 cb s t hcfg h hok
  obtain ⟨hwait, -⟩ := Config.legal_iff.mp hcfg
  obtain rfl := exec_reg_ok h hok
  have hnew := s.channel?_complete_append_self (Channel.registered s.config l0 l1 cb) ⟨some (.ok s.numReaders), []⟩
  have hold := fun c (hc : c < s.numReaders) => State.channel?_complete_append_lt hc
    (Channel.registered s.config l0 l1 cb) ⟨some (.ok s.numReaders), []⟩
  have htick := pollChannel_registered hcfg s.numReaders l0 l1 cb
  refine ⟨⟨_, hnew, rfl, rfl, Nat.le_of_succ_le hwait, Nat.le_refl _⟩, hold, _, _, exec_poll _, exec_poll s, ?_, ?_, ?_⟩
  · intro c hc
    rw [exec_poll_channel? (exec_poll _), exec_poll_channel? (exec_poll s), hold c hc, State.complete_config]
  · refine ⟨_, by rw [exec_poll_channel? (exec_poll _), hnew, Option.map_some, State.complete_config, htick], ?_, rfl⟩
    have hcount := toNat_countDown s.config.wait
    change (countDown s.config.wait).toNat + 1 = _
    omega
  · have hidx : 0 + s.channels.length = s.numReaders := Nat.zero_add _
    simp only [State.complete_outputs, State.complete_config, State.complete_channels, pollFrom_concat, hidx, htick,
      List.flatMap_append, List.flatMap_singleton, List.append_nil]

/-- Settles O14: neither check of `REG` holds, so it appends the channel of R103. -/
theorem regCreatesTheNextChannel : Obligations.RegCreatesTheNextChannel := by
  intro l0 l1 cb s hcap hphys
  have hexc : ¬ s.capacityExceeded = true := by
    intro h
    obtain ⟨hne, heq⟩ := State.capacityExceeded_iff.mp h
    exact hcap.elim hne fun hnum => hnum heq
  have hfull : ¬ s.physicallyFull = true := by
    intro h
    obtain ⟨hzero, n, hn, hle⟩ := State.physicallyFull_iff.mp h
    exact (hphys hzero n hn).not_ge hle
  exact exec_reg_of_room hexc hfull l0 l1 cb

/-- Settles O16: with `CAP` = 0 the capacity check cannot hold, and the check of the physical channels does. -/
theorem regBeyondPhysicalChannelsIsRefused : Obligations.RegBeyondPhysicalChannelsIsRefused := by
  intro l0 l1 cb s n hcap hn hle
  have hexc : ¬ s.capacityExceeded = true := fun h => (State.capacityExceeded_iff.mp h).1 hcap
  exact exec_reg_of_physicallyFull hexc (State.physicallyFull_iff.mpr ⟨hcap, n, hn, hle⟩) l0 l1 cb

end Sys2Proof.Machine
end

section
/-! SUPPORT. Either edge on its channel: the count, the pending flag, a full buffer (R112, R113). -/
namespace Sys2Proof.Machine

theorem Channel.framePending_iff {ch : Channel} :
    ch.framePending = true ↔ ch.bitCount ≠ 0#7 ∧ ch.frameReady = false := by
  simp [Channel.framePending, BitVec.pos_iff_ne_zero]

/-- Below the cap the bit is counted, and the count does not wrap (R13). -/
theorem Channel.toNat_bitCount_capture {cfg : Config} {ch : Channel} (h : ch.bitCount.toNat < cfg.maxBits.toNat)
    (b : Bool) : (ch.capture cfg b).bitCount.toNat = ch.bitCount.toNat + 1 := by
  rw [Channel.bitCount_capture, if_pos h, bitCount_succ_toNat h]

/-- At the cap, and above it, the bit is not counted (R112). -/
theorem Channel.bitCount_capture_of_full {cfg : Config} {ch : Channel} (h : cfg.maxBits.toNat ≤ ch.bitCount.toNat)
    (b : Bool) : (ch.capture cfg b).bitCount = ch.bitCount := by
  rw [Channel.bitCount_capture, if_neg h.not_gt]

/-- At the cap, and above it, no cell is written (R112). -/
theorem Channel.bits_capture_of_full {cfg : Config} {ch : Channel} (h : cfg.maxBits.toNat ≤ ch.bitCount.toNat)
    (b : Bool) : (ch.capture cfg b).bits = ch.bits := by
  refine BitVec.eq_of_getLsbD_eq fun j _ => ?_
  change (ch.capture cfg b).bufRead j = ch.bufRead j
  simp [Channel.bufRead_capture, h.not_gt]

/-- The count stays in 0..`MAX_BITS` (R112). -/
theorem Channel.toNat_bitCount_capture_le {cfg : Config} {ch : Channel} (h : ch.bitCount.toNat ≤ cfg.maxBits.toNat)
    (b : Bool) : (ch.capture cfg b).bitCount.toNat ≤ cfg.maxBits.toNat := by
  rcases h.lt_or_eq with hlt | heq
  · rw [Channel.toNat_bitCount_capture hlt]
    exact hlt
  · rwa [Channel.bitCount_capture_of_full heq.ge]

/-- The only cell that can change is the one at `bitCount`, below the cap (R112). -/
theorem Channel.bufRead_capture_ne {cfg : Config} {ch : Channel} {b : Bool} {j : Nat}
    (h : (ch.capture cfg b).bufRead j ≠ ch.bufRead j) : j = ch.bitCount.toNat ∧ j < cfg.maxBits.toNat := by
  by_contra hj
  refine h ?_
  have hcell : ¬ (ch.bitCount.toNat < cfg.maxBits.toNat ∧ j = ch.bitCount.toNat) := fun ⟨hlt, heq⟩ => hj ⟨heq, heq ▸ hlt⟩
  rw [Channel.bufRead_capture, decide_eq_false hcell, Bool.and_false, Bool.or_false]

/-- A captured bit leaves a frame pending, since at the cap the buffer already holds bits (R31, R110). -/
theorem Channel.framePending_capture {cfg : Config} (h : 1 ≤ cfg.maxBits.toNat) (ch : Channel) (b : Bool) :
    (ch.capture cfg b).framePending = true := by
  refine Channel.framePending_iff.mpr ⟨fun hzero => ?_, congrArg Channel.frameReady (ch.capture_eq cfg b)⟩
  have hnat : (ch.capture cfg b).bitCount.toNat = 0 := by rw [hzero]; rfl
  rcases lt_or_ge ch.bitCount.toNat cfg.maxBits.toNat with hlt | hfull
  · rw [Channel.toNat_bitCount_capture hlt] at hnat
    omega
  · rw [Channel.bitCount_capture_of_full hfull] at hnat
    omega

/-- Either edge answers a next state on a registered channel, without output (R110, R111). -/
theorem exec_edge_some {i : Instr} {s : State} {c : Nat} {ch : Channel} (hi : i = .edge0 c ∨ i = .edge1 c)
    (hc : s.channel? c = some ch) :
    ∃ b, exec i s = .next (s.complete (s.channels.set c (ch.capture s.config b)) ⟨none, []⟩) := by
  obtain rfl | rfl := hi
  · exact ⟨false, onChannel_some hc _⟩
  · exact ⟨true, onChannel_some hc _⟩

end Sys2Proof.Machine
end

section
/-! Settles the statements of 41_bit_capture.md. -/
namespace Sys2Proof.Machine

/-- Settles O20, by what either edge makes of its channel: at the cap, and from any count up to it. -/
theorem fullBufferDiscardsTheBit : Obligations.FullBufferDiscardsTheBit := by
  intro c s t ch i hi hc h
  obtain ⟨b, hexec⟩ := exec_edge_some hi hc
  cases hexec.symm.trans h
  have hch' := State.channel?_complete_set_self hc (ch.capture s.config b) ⟨none, []⟩
  refine ⟨fun hcap => ⟨rfl, _, hch', ?_⟩, fun hle => ⟨_, hch', ?_, fun _ => Channel.bufRead_capture_ne⟩⟩
  · have hfull : s.config.maxBits.toNat ≤ ch.bitCount.toNat := by rw [hcap]
    refine ⟨Channel.bits_capture_of_full hfull b, Channel.bitCount_capture_of_full hfull b, ?_⟩
    rw [Channel.capture_eq]
    exact ⟨rfl, rfl, rfl, rfl⟩
  · exact Channel.toNat_bitCount_capture_le hle b

/-- Settles O18: the channel of the statement is the one that capturing a 0 leaves. -/
theorem edge0AppendsAZeroBit : Obligations.Edge0AppendsAZeroBit := by
  intro c s ch hc ch'
  have hch' : ch.capture s.config false = ch' := ch.captureZero_eq s.config
  rw [← hch']
  exact ⟨onChannel_some hc _, fun hlt => Channel.toNat_bitCount_capture hlt false,
    fun hmax => Channel.framePending_capture hmax ch false, rfl⟩

/-- Settles O19, by the channel that capturing a 1 leaves. -/
theorem edge1AppendsAOneBit : Obligations.Edge1AppendsAOneBit := by
  intro c s ch hc
  refine ⟨ch.capture s.config true, onChannel_some hc _, fun j => ?_, ch.capture_eq s.config true,
    fun hlt => Channel.toNat_bitCount_capture hlt true, fun hmax => Channel.framePending_capture hmax ch true, rfl⟩
  rw [Channel.bufRead_capture, Bool.true_and, Bool.decide_and]

end Sys2Proof.Machine
end

section
/-! SUPPORT. Where the countdown runs out (R122, R123), the tick after an edge (R124), and the event of a decoded frame with
its length and verdict, in any block (R137, R172). -/
namespace Sys2Proof.Machine

theorem countDown_eq_zero_iff {n : Countdown} : countDown n = 0#12 ↔ n.toNat ≤ 1 := by
  rw [← BitVec.toNat_inj, toNat_countDown]
  exact Nat.sub_eq_zero_iff_le

/-- An edge that answers a next state was on a registered channel, and captured a bit there. -/
theorem exec_edge_next {i : Instr} {s t : State} {c : Nat} (hi : i = .edge0 c ∨ i = .edge1 c) (h : exec i s = .next t) :
    ∃ ch b, s.channel? c = some ch ∧ t = s.complete (s.channels.set c (ch.capture s.config b)) ⟨none, []⟩ := by
  have ha : addressee i = some c := by obtain rfl | rfl := hi <;> rfl
  obtain ⟨ch, -, -, hc, -⟩ := exec_addressed_next ha h
  obtain ⟨b, hedge⟩ := exec_edge_some hi hc
  exact ⟨ch, b, hc, Host.Outcome.next.inj (h.symm.trans hedge)⟩

/-- The first tick after an edge: `WAIT` is at least 2, so it does not end the countdown (R8, R124). -/
theorem pollChannel_capture {cfg : Config} (hwait : 2 ≤ cfg.wait.toNat) (c : Nat) (ch : Channel) (b : Bool) :
    pollChannel cfg c (ch.capture cfg b) = ({ ch.capture cfg b with inactivityCounter := countDown cfg.wait }, []) := by
  have hr : (ch.capture cfg b).frameReady = false := congrArg Channel.frameReady (ch.capture_eq cfg b)
  have hcount : (ch.capture cfg b).inactivityCounter = cfg.wait := congrArg Channel.inactivityCounter (ch.capture_eq cfg b)
  have hne : countDown (ch.capture cfg b).inactivityCounter ≠ 0#12 := by
    rw [hcount, Ne, countDown_eq_zero_iff]
    omega
  rw [pollChannel_tick cfg c hr hne, hcount]

/-- A channel with a handler emits one event when it decodes, with the length and the verdict of its frame. -/
theorem decodeChannel_one_event (cfg : Config) (c : Nat) {ch : Channel} (hcb : ch.cbPresent = true) :
    ∃ e, (decodeChannel cfg c ch).2 = [e] ∧ e.handle = c ∧ e.length = ch.bitCount ∧
      e.unsupported = verdict cfg.formats ch.bitCount.toNat := by
  obtain ⟨-, -, -, hbc, -, -, hcb', hfu⟩ := ch.classify_frame cfg.formats
  refine ⟨(ch.classify cfg.formats).event c, ?_, rfl, hbc, hfu⟩
  rw [decodeChannel_snd, Channel.emit, if_pos (hcb'.trans hcb)]

end Sys2Proof.Machine
end

section
/-! Settles the statements of 42_timeout_scanner.md. -/
namespace Sys2Proof.Machine

/-- Settles O22, by the two cases of `SCAN` on its channel; the decremented counter is zero exactly from 1 and from 0. -/
theorem scanCountsDownToTheFrameBoundary : Obligations.ScanCountsDownToTheFrameBoundary := by
  intro c s ch hc
  refine ⟨ch.scan, onChannel_some hc _, Channel.scan_ready, fun hr => ?_⟩
  rw [Channel.scan_running hr]
  exact ⟨rfl, toNat_countDown _, decide_eq_true_iff.trans countDown_eq_zero_iff⟩

/-- Settles O35: the edge leaves the countdown at `WAIT`, so the next `POLL` is a tick that does not end the window. -/
theorem edgeKeepsTheNextPollFromTimingOut : Obligations.EdgeKeepsTheNextPollFromTimingOut := by
  intro c s t u i hi hwait h hpoll
  obtain ⟨ch, b, hc, rfl⟩ := exec_edge_next hi h
  have hch := State.channel?_complete_set_self hc (ch.capture s.config b) ⟨none, []⟩
  have hev := exec_poll_eventsOf hpoll hch
  have hch' := exec_poll_channel? hpoll c
  rw [State.complete_config, pollChannel_capture hwait] at hev
  rw [hch, Option.map_some, State.complete_config, pollChannel_capture hwait] at hch'
  refine ⟨hev, _, _, hch, hch', congrArg Channel.frameReady (ch.capture_eq s.config b), ?_, rfl, rfl⟩
  change (countDown s.config.wait).toNat + 1 = _
  rw [toNat_countDown]
  omega

/-- Settles O36: all polls of the window but the last only count down, to 1; the last decodes the frame, and a decode with a
handler gives one event. -/
theorem frameIsDecodedByTheLastPollOfItsWindow : Obligations.FrameIsDecodedByTheLastPollOfItsWindow := by
  intro c s ch rest hc hr hbc hcb hcount hin
  constructor
  · have hpos : ch.inactivityCounter.toNat ≠ 0 := fun h => hcount (BitVec.eq_of_toNat_eq h)
    obtain ⟨n, hn⟩ := Nat.exists_eq_succ_of_ne_zero hpos
    rw [hn, List.replicate_succ', List.append_assoc] at hin
    obtain ⟨t, es, hrun, -, -, hev, htc⟩ := trace_polls_within_window (k := 1#12) hin hc hr (by decide) hn
    rw [hn, Nat.succ_sub_one]
    exact ⟨t, es, hrun, hev, htc⟩
  · obtain ⟨t, es, hrun, -, hev, htc⟩ := trace_polls_of_window hin hc hr hbc hcount
    obtain ⟨e, he, hhandle, hlength, hverdict⟩ := decodeChannel_one_event s.config c (ch := ch.expired) hcb
    rw [decodeChannel_fst] at htc
    exact ⟨t, es, e, hrun, hev.trans he, hhandle, hlength, hverdict, htc⟩

end Sys2Proof.Machine
end

section
/-! SUPPORT. A decode as one next state of the machine, for `DECODE` and for the frame kinds (R130, R137, R139), the fields
of the three formats in the buffer (R133 to R135), the refusals outside the entry condition (R140), and an empty channel
whose countdown has run out, under a `POLL` and under an edge (R139). -/
namespace Sys2Proof

/-- Zero extension of a field from a register that is as wide as its range (R79, R80). -/
theorem setWidth_ofNat_extract {v start stop : Nat} (w : Nat) (cell : Nat → Bool) (h : stop - start ≤ v) :
    (BitVec.ofNat v (extract cell start stop)).setWidth w = BitVec.ofNat w (extract cell start stop) := by
  refine BitVec.eq_of_toNat_eq ?_
  rw [BitVec.toNat_setWidth, toNat_ofNat_extract cell h, BitVec.toNat_ofNat]

namespace Machine

/-! ### Outside the entry condition (R140) -/

theorem Channel.not_finished_iff {ch : Channel} : ¬ ch.finished = true ↔ ch.bitCount = 0#7 ∨ ch.frameReady = false := by
  rw [Channel.finished_iff, not_and_or, not_not, Bool.not_eq_true]

theorem onFrame_not_held {c : Nat} {frame : List Bool} {s : State} {ch : Channel} (hc : s.channel? c = some ch)
    (h : ¬ (ch.finished = true ∧ ch.frame = frame)) : onFrame c frame s = .refused (.frameNotHeld c) := by
  have hcond : ¬ (ch.finished && decide (ch.frame = frame)) = true := by rwa [Bool.and_eq_true, decide_eq_true_eq]
  simp only [onFrame, hc, if_neg hcond]

/-! ### The next state of a decode -/

/-- The machine after the decode of channel `c`, which was `ch`: the event with these codes and this verdict when a handler
is present (R137), and the frame reset (R139). -/
def State.afterDecode (s : State) (c : Nat) (ch : Channel) (fac : FacilityCode) (card : CardCode) (unsup : Bool) : State :=
  s.complete
    (s.channels.set c { ch with
      bits := 0#127, bitCount := 0#7, facilityCode := 0#12, cardCode := 0#20, formatUnsupported := unsup })
    ⟨none, if ch.cbPresent then
      [{ handle := c, line0 := ch.line0, line1 := ch.line1, length := ch.bitCount, facilityCode := fac,
         cardCode := card, unsupported := unsup }] else []⟩

/-- Any event after a decode is that decode's own. -/
theorem State.eq_of_mem_events_afterDecode {s : State} {c : Nat} {ch : Channel} {fac : FacilityCode} {card : CardCode}
    {unsup : Bool} {e : DecodeEvent} (he : e ∈ (s.afterDecode c ch fac card unsup).outputs.events) :
    e = { handle := c, line0 := ch.line0, line1 := ch.line1, length := ch.bitCount, facilityCode := fac,
          cardCode := card, unsupported := unsup } := by
  rw [State.afterDecode, State.complete_outputs] at he
  split at he
  · exact List.mem_singleton.mp he
  · cases he

/-- `DECODE` on a finished frame and the frame kind that the frame is answer the same next state: the one with the codes
and the verdict that classification leaves (R130). -/
theorem exec_decodes {i : Instr} {s : State} {c : Nat} {ch : Channel} (hc : s.channel? c = some ch)
    (hfin : ch.finished = true) (hi : i = .decode c ∨ encode i = some (.frame c ch.frame)) :
    exec i s = .next (s.afterDecode c ch (ch.classify s.config.formats).facilityCode
      (ch.classify s.config.formats).cardCode (ch.classify s.config.formats).formatUnsupported) := by
  have hstep : ChannelStep s.config c ch i (ch.classify s.config.formats).frameReset
      ((ch.classify s.config.formats).emit c) := by
    obtain rfl | henc := hi
    · exact .decode hfin
    · exact .frame i hfin henc
  rw [hstep.exec_eq hc]
  cases hrow : lookupFormat s.config.formats ch.bitCount.toNat with
  | none => rw [Channel.classify_none hrow]; rfl
  | some row => rw [Channel.classify_some hrow]; rfl

/-- The frame kind of a held frame whose length `n` matches a row reports that row's fields (R131, R132). -/
theorem exec_frame_of_row {i : Instr} {s : State} {c : Nat} {ch : Channel} {n : BitCount} {bits : List Bool}
    {row : FormatRow} {fac : FacilityCode} {card : CardCode} (hc : s.channel? c = some ch) (hready : ch.frameReady = true)
    (hbc : ch.bitCount = n) (hn : n ≠ 0#7) (hframe : ch.frame = bits) (henc : encode i = some (.frame c bits))
    (hrow : lookupFormat s.config.formats n.toNat = some row) (hfac : BitVec.ofNat 12 (ch.extract row.fs row.fe) = fac)
    (hcard : BitVec.ofNat 20 (ch.extract row.cs row.ce) = card) :
    exec i s = .next (s.afterDecode c ch fac card false) := by
  subst hbc hframe
  rw [exec_decodes hc (Channel.finished_iff.mpr ⟨hn, hready⟩) (.inr henc), Channel.classify_some hrow,
    Channel.loadRow_facilityCode, Channel.loadRow_cardCode, Channel.loadRow_formatUnsupported, hfac, hcard]

/-- With the table of R71, classification writes the numbers of R130. -/
theorem Channel.classify_formatTable (ch : Channel) :
    (ch.classify formatTable).facilityCode = BitVec.ofNat 12 (if ch.bitCount.toNat = 35 then ch.extract 2 14
      else if ch.bitCount.toNat = 26 then ch.extract 1 9
      else if ch.bitCount.toNat = 32 then ch.extract 4 16 else ch.facilityCode.toNat) ∧
    (ch.classify formatTable).cardCode = BitVec.ofNat 20 (if ch.bitCount.toNat = 35 then ch.extract 14 34
      else if ch.bitCount.toNat = 26 then ch.extract 9 25
      else if ch.bitCount.toNat = 32 then ch.extract 16 32 else ch.cardCode.toNat) ∧
    (ch.classify formatTable).formatUnsupported =
      decide (ch.bitCount.toNat ≠ 35 ∧ ch.bitCount.toNat ≠ 26 ∧ ch.bitCount.toNat ≠ 32) := by
  have hrow := lookupFormat_eq ch.bitCount.toNat
  split_ifs at hrow ⊢ with h35 h26 h32
  · rw [Channel.classify_some hrow]
    exact ⟨rfl, rfl, by simp [h35]⟩
  · rw [Channel.classify_some hrow]
    exact ⟨rfl, rfl, by simp [h26]⟩
  · rw [Channel.classify_some hrow]
    exact ⟨rfl, rfl, by simp [h32]⟩
  · rw [Channel.classify_none hrow, BitVec.ofNat_toNat, BitVec.ofNat_toNat]
    exact ⟨rfl, rfl, by simp [h35, h26, h32]⟩

/-! ### The fields of the three formats, in the buffer -/

theorem Channel.extract_corp1000 {ch : Channel} {x : BitVec 3} {f : BitVec 12} {k : BitVec 20} (hbc : ch.bitCount = 35#7)
    (h : ch.frame = corp1000Bits x f k) :
    BitVec.ofNat 12 (ch.extract 2 14) = f ∧ BitVec.ofNat 20 (ch.extract 14 34) = k := by
  obtain ⟨-, -, hf, hk⟩ := Instr.corp1000.inj (decodeFormat_corp1000Bits 0 x f k)
  rw [ch.extract_eq_extract_frame (by simp [hbc]), ch.extract_eq_extract_frame (by simp [hbc]), h]
  exact ⟨hf, hk⟩

theorem Channel.extract_w26 {ch : Channel} {x : BitVec 2} {f : BitVec 8} {k : BitVec 16} (hbc : ch.bitCount = 26#7)
    (h : ch.frame = w26Bits x f k) :
    BitVec.ofNat 8 (ch.extract 1 9) = f ∧ BitVec.ofNat 16 (ch.extract 9 25) = k := by
  obtain ⟨-, -, hf, hk⟩ := Instr.w26.inj (decodeFormat_w26Bits 0 x f k)
  rw [ch.extract_eq_extract_frame (by simp [hbc]), ch.extract_eq_extract_frame (by simp [hbc]), h]
  exact ⟨hf, hk⟩

theorem Channel.extract_w32 {ch : Channel} {x : BitVec 4} {f : BitVec 12} {k : BitVec 16} (hbc : ch.bitCount = 32#7)
    (h : ch.frame = w32Bits x f k) :
    BitVec.ofNat 12 (ch.extract 4 16) = f ∧ BitVec.ofNat 16 (ch.extract 16 32) = k := by
  obtain ⟨-, -, hf, hk⟩ := Instr.w32.inj (decodeFormat_w32Bits 0 x f k)
  rw [ch.extract_eq_extract_frame (by simp [hbc]), ch.extract_eq_extract_frame (by simp [hbc]), h]
  exact ⟨hf, hk⟩

/-! ### An empty channel whose countdown has run out -/

/-- `SCAN` skips it and no frame is decoded (R121, R139). -/
theorem pollChannel_of_empty_ready {ch : Channel} (cfg : Config) (c : Nat) (hready : ch.frameReady = true)
    (hbc : ch.bitCount = 0#7) : pollChannel cfg c ch = (ch, []) := by
  have hscan : ch.scan = ch := Channel.scan_ready hready
  have hfin : ch.scan.finished = false := by
    rw [hscan, ← Bool.not_eq_true]
    exact Channel.not_finished_iff.mpr (.inl hbc)
  rw [pollChannel_unfinished hfin, hscan]

/-- Either edge on a registered channel captures its own bit (R110, R111). -/
theorem exec_edge_capture {s : State} {c : Nat} {ch : Channel} (hc : s.channel? c = some ch) (b : Bool) :
    exec (if b then .edge1 c else .edge0 c) s =
      .next (s.complete (s.channels.set c (ch.capture s.config b)) ⟨none, []⟩) := by
  cases b <;> exact onChannel_some hc _

/-- The bit that an empty channel captures is a frame of length 1, in cell 0 (R110, R111). -/
theorem Channel.capture_of_empty {cfg : Config} {ch : Channel} (hmax : 1 ≤ cfg.maxBits.toNat) (hbc : ch.bitCount = 0#7)
    (hcells : ∀ j, ch.bufRead j = false) (b : Bool) :
    (ch.capture cfg b).bitCount = 1#7 ∧ ∀ j, (ch.capture cfg b).bufRead j = (b && decide (j = 0)) := by
  have hzero : ch.bitCount.toNat = 0 := by rw [hbc]; rfl
  have hroom : 0 < cfg.maxBits.toNat := hmax
  refine ⟨?_, fun j => ?_⟩
  · rw [Channel.bitCount_capture, hzero, if_pos hroom, hbc]
    rfl
  · rw [Channel.bufRead_capture, hcells, hzero, Bool.false_or]
    simp only [hroom, true_and]

end Machine
end Sys2Proof
end

section
/-! Settles the statements of 43_frame_decoder.md. -/
namespace Sys2Proof.Machine

/-- Settles O12: `DECODE` checks that a frame is finished, a frame kind also that the frame is its own. -/
theorem decodeOutsideItsEntryConditionIsRefused : Obligations.DecodeOutsideItsEntryConditionIsRefused := by
  intro c s ch hc
  constructor
  · intro h
    rw [exec_decode_some hc, if_neg (Channel.not_finished_iff.mpr h)]
  · intro i frame henc h
    rw [exec_of_encode_frame henc]
    refine onFrame_not_held hc fun ⟨hfin, hframe⟩ => ?_
    obtain ⟨hbc, hready⟩ := Channel.finished_iff.mp hfin
    simp [hbc, hready, hframe] at h

/-- Settles O23: the row of R71 for 35 reads the two fields where the encoder put them. -/
theorem corp1000FrameIsDecoded : Obligations.Corp1000FrameIsDecoded := by
  intro c x f k s ch hc hready hbc hframe hrow
  obtain ⟨hf, hk⟩ := Channel.extract_corp1000 hbc hframe
  refine ⟨hf.symm, hk.symm, ?_⟩
  rw [← hbc]
  exact exec_frame_of_row hc hready hbc (by decide) hframe rfl hrow hf hk

/-- Settles O24: as for `CORP1000`, with the row for 26 and both fields zero-extended. -/
theorem w26FrameIsDecoded : Obligations.W26FrameIsDecoded := by
  intro c x f k s ch hc hready hbc hframe hrow
  obtain ⟨hf, hk⟩ := Channel.extract_w26 hbc hframe
  have hfac : BitVec.ofNat 12 (ch.extract 1 9) = f.setWidth 12 := hf ▸ (setWidth_ofNat_extract 12 _ le_rfl).symm
  have hcard : BitVec.ofNat 20 (ch.extract 9 25) = k.setWidth 20 := hk ▸ (setWidth_ofNat_extract 20 _ le_rfl).symm
  refine ⟨hf.symm, hk.symm, ?_⟩
  rw [← hbc]
  exact exec_frame_of_row hc hready hbc (by decide) hframe rfl hrow hfac hcard

/-- Settles O25: as for `CORP1000`, with the row for 32 and the card code zero-extended. -/
theorem w32FrameIsDecoded : Obligations.W32FrameIsDecoded := by
  intro c x f k s ch hc hready hbc hframe hrow
  obtain ⟨hf, hk⟩ := Channel.extract_w32 hbc hframe
  have hcard : BitVec.ofNat 20 (ch.extract 16 32) = k.setWidth 20 := hk ▸ (setWidth_ofNat_extract 20 _ le_rfl).symm
  refine ⟨hf.symm, hk.symm, ?_⟩
  rw [← hbc]
  exact exec_frame_of_row hc hready hbc (by decide) hframe rfl hrow hf hcard

/-- Settles O27: the codes and the verdict are those of the classified channel, by the row that matches, or none. -/
theorem decodePerformsItsFiveSteps : Obligations.DecodePerformsItsFiveSteps := by
  intro c s ch hc hready hbc n
  refine ⟨_, _, _, exec_decodes hc (Channel.finished_iff.mpr ⟨hbc, hready⟩) (.inl rfl), ?_, ?_, ?_⟩
  · intro row hrow
    rw [Channel.classify_some hrow]
    exact ⟨rfl, rfl, rfl⟩
  · intro hrow
    rw [Channel.classify_none hrow]
    exact ⟨rfl, rfl, rfl⟩
  · intro hformats
    rw [hformats]
    exact ch.classify_formatTable

/-- Settles O29: the decode leaves an empty channel whose `frameReady` is 1, so a `POLL` skips it and an edge finds cell 0
free. -/
theorem nextBitAfterADecodeStartsAFreshFrame : Obligations.NextBitAfterADecodeStartsAFreshFrame := by
  intro c s t ch hc h
  rw [exec_decode_some hc] at h
  split at h
  case isFalse => cases h
  case isTrue hfin =>
    obtain rfl := Host.Outcome.next.inj h
    have hch' := State.channel?_complete_set_self hc (decodeChannel s.config c ch).1
      ⟨none, (decodeChannel s.config c ch).2⟩
    obtain ⟨hbc, hcells⟩ := decodeChannel_cleared s.config c ch
    have hready : (decodeChannel s.config c ch).1.frameReady = true := by
      rw [decodeChannel_fst]
      exact (Channel.finished_iff.mp hfin).2
    have hpoll := pollChannel_of_empty_ready s.config c hready hbc
    refine ⟨_, hch', hbc, rfl, rfl, hcells, hready, ?_, ?_, ⟨_, exec_poll _, ?_, ?_⟩, fun hmax b => ?_⟩
    · rw [decodeChannel_fst]
    · rw [decodeChannel_fst]
      rfl
    · rw [exec_poll_channel? (exec_poll _), hch', Option.map_some, State.complete_config, hpoll]
    · rw [exec_poll_eventsOf (exec_poll _) hch', State.complete_config, hpoll]
    · exact ⟨_, _, exec_edge_capture hch' b, State.channel?_complete_set_self hch' _ _,
        Channel.capture_of_empty hmax hbc hcells b⟩

/-- Settles O26: with no row the verdict is written and the codes are not, and the event carries them as they stand. -/
theorem unsupportedFrameIsReported : Obligations.UnsupportedFrameIsReported := by
  intro c frame s ch hc hready hbc hrow hframe
  subst hframe
  have hexec : exec (.unsupported c ch.frame) s = .next (s.afterDecode c ch ch.facilityCode ch.cardCode true) := by
    rw [exec_decodes hc (Channel.finished_iff.mpr ⟨hbc, hready⟩) (.inr rfl), Channel.classify_none hrow]
    rfl
  refine ⟨hexec, fun hfac hcard t ht e he => ?_⟩
  obtain rfl := Host.Outcome.next.inj (hexec.symm.trans ht)
  obtain rfl := State.eq_of_mem_events_afterDecode he
  exact ⟨hfac, hcard, rfl, rfl⟩

end Sys2Proof.Machine
end

section
/-! SUPPORT. The loop of R150 and the pass that `POLL` makes, the events of a pass (R151, R168), and one channel's part of it
by the states of R152 (R153, R155). -/
namespace Sys2Proof.Machine

/-! ### The loop and the pass (R150) -/

/-- One round of the loop is the channel's part of the pass. -/
theorem pollRound_some {s : State} {c : Nat} {ch : Channel} (hc : s.channel? c = some ch) :
    pollRound c s = some (s.complete (s.channels.set c (pollChannel s.config c ch).1) ⟨none, (pollChannel s.config c ch).2⟩,
      (pollChannel s.config c ch).2) := by
  have hscan : exec (.scan c) s = .next (s.complete (s.channels.set c ch.scan) ⟨none, []⟩) := onChannel_some hc _
  have hc1 := State.channel?_complete_set_self hc ch.scan ⟨none, []⟩
  simp only [pollRound, hscan, hc1, Option.any_some]
  change (if ch.scan.finished = true then _ else _) = _
  cases hf : ch.scan.finished with
  | true =>
    simp only [exec_decode_some hc1, hf, if_true, pollChannel_finished hf, State.complete_channels, State.complete_config,
      State.complete_outputs, List.set_set]
    rfl
  | false => rw [if_neg Bool.false_ne_true, pollChannel_unfinished hf]

/-- The loop over the channels `chs` that stand after the channels `done`: it leaves these and makes the pass over those. -/
theorem pollLoop_eq {s : State} {done chs : List Channel} (h : s.channels = done ++ chs) :
    ∃ o, pollLoop done.length chs.length s =
      some (s.complete (done ++ (pollFrom s.config done.length chs).map Prod.fst) o,
        (pollFrom s.config done.length chs).flatMap Prod.snd) := by
  induction chs generalizing s done with
  | nil => exact ⟨s.outputs, by rw [pollFrom, List.map_nil, ← h]; rfl⟩
  | cons ch rest ih =>
    have hc : s.channel? done.length = some ch := by simp [State.channel?, h]
    have hset (ch' : Channel) : s.channels.set done.length ch' = done ++ [ch'] ++ rest := by simp [h]
    obtain ⟨o, hrest⟩ := ih (s := s.complete (done ++ [(pollChannel s.config done.length ch).1] ++ rest)
      ⟨none, (pollChannel s.config done.length ch).2⟩) rfl
    rw [List.length_append, List.length_singleton] at hrest
    refine ⟨o, ?_⟩
    simp only [List.length_cons, pollLoop, pollRound_some hc, hset, hrest, Option.map_some]
    simp only [List.append_assoc]
    rfl

/-! ### The events of a pass (R151, R168) -/

/-- A channel's part of the pass emits nothing, or one event of its own, when it has a handler (R137, R172). -/
theorem pollChannel_events (cfg : Config) (c : Nat) (ch : Channel) :
    (pollChannel cfg c ch).2 = [] ∨
    ∃ e, (pollChannel cfg c ch).2 = [e] ∧ e.handle = c ∧ ch.cbPresent = true ∧ e.line0 = ch.line0 ∧ e.line1 = ch.line1 ∧
      e.length = ch.bitCount := by
  cases hf : ch.scan.finished with
  | false => exact .inl (by rw [pollChannel_unfinished hf])
  | true =>
    obtain ⟨s0, s1, -, sbc, -, -, -, scb⟩ := ch.scan_frame
    obtain ⟨k0, k1, -, kbc, -, -, kcb, -⟩ := ch.scan.classify_frame cfg.formats
    rw [pollChannel_finished hf, decodeChannel_snd, Channel.emit, kcb, scb]
    cases hcb : ch.cbPresent with
    | false => exact .inl rfl
    | true => exact .inr ⟨_, rfl, rfl, rfl, k0.trans s0, k1.trans s1, kbc.trans sbc⟩

/-- The handles of a pass ascend: at most one event a channel, and the channels in the order of their indices. -/
theorem pollFrom_events_ascend (cfg : Config) (c : Nat) (chs : List Channel) :
    ((pollFrom cfg c chs).flatMap Prod.snd).Pairwise fun e e' => e.handle < e'.handle := by
  induction chs generalizing c with
  | nil => exact .nil
  | cons ch rest ih =>
    refine List.pairwise_append.mpr ⟨?_, ih (c + 1), fun e he e' he' => ?_⟩
    · obtain hnone | ⟨e, hone, -⟩ := pollChannel_events cfg c ch
      · rw [hnone]
        exact .nil
      · rw [hone]
        exact List.pairwise_singleton _ e
    · obtain ⟨d, ch', -, he'⟩ := mem_pollFrom_events he'
      rw [pollChannel_handle he, pollChannel_handle he']
      omega

/-- Every event of a `POLL` is of a registered channel with a handler, with its lines and the `bitCount` it had. -/
theorem exec_poll_event {s t : State} {e : DecodeEvent} (h : exec .poll s = .next t) (he : e ∈ t.outputs.events) :
    ∃ ch, s.channel? e.handle = some ch ∧ ch.cbPresent = true ∧ e.line0 = ch.line0 ∧ e.line1 = ch.line1 ∧
      e.length = ch.bitCount := by
  rw [exec_poll] at h
  cases h
  obtain ⟨d, ch, hch, he⟩ := mem_pollFrom_events he
  obtain hnone | ⟨e', hone, hhandle, hrest⟩ := pollChannel_events s.config (0 + d) ch
  · rw [hnone] at he
    cases he
  · rw [hone] at he
    obtain rfl := List.mem_singleton.mp he
    rw [hhandle, Nat.zero_add]
    exact ⟨ch, hch, hrest⟩

/-! ### A channel's part, by its state (R152, R153) -/

/-- An idle channel is scanned and not decoded, even where the scan ends its countdown (R155). -/
theorem pollChannel_of_empty {ch : Channel} (cfg : Config) (c : Nat) (hbc : ch.bitCount = 0#7) :
    pollChannel cfg c ch = (ch.scan, []) := by
  obtain ⟨-, -, -, hscan, -⟩ := ch.scan_frame
  refine pollChannel_unfinished ?_
  rw [← Bool.not_eq_true]
  exact Channel.not_finished_iff.mpr (.inl (hscan.trans hbc))

/-- The tick at 1 of an accumulating channel decodes it (R153). -/
theorem pollChannel_of_one {ch : Channel} (cfg : Config) (c : Nat) (hbc : ch.bitCount ≠ 0#7) (hr : ch.frameReady = false)
    (hcount : ch.inactivityCounter = 1#12) : pollChannel cfg c ch = decodeChannel cfg c ch.expired := by
  rw [← pollChannel_lastTick cfg c hr hbc, ← hcount]

/-- The first bit of an idle channel is a count of 1 (R153). -/
theorem Channel.bitCount_capture_of_empty {cfg : Config} {ch : Channel} (hmax : 1 ≤ cfg.maxBits.toNat)
    (hbc : ch.bitCount = 0#7) (b : Bool) : (ch.capture cfg b).bitCount = 1#7 := by
  have hroom : (0#7).toNat < cfg.maxBits.toNat := hmax
  rw [Channel.bitCount_capture, hbc, if_pos hroom]
  rfl

/-- A bit adds 1 to the count, up to `MAX_BITS` (R112, R153). -/
theorem Channel.toNat_bitCount_capture_eq_min {cfg : Config} {ch : Channel} (h : ch.bitCount.toNat ≤ cfg.maxBits.toNat)
    (b : Bool) : (ch.capture cfg b).bitCount.toNat = min (ch.bitCount.toNat + 1) cfg.maxBits.toNat := by
  rcases h.lt_or_eq with hlt | heq
  · rw [Channel.toNat_bitCount_capture hlt, Nat.min_eq_left hlt]
  · rw [Channel.bitCount_capture_of_full heq.ge, heq, Nat.min_eq_right (Nat.le_succ _)]

end Sys2Proof.Machine
end

section
/-! Settles the statements of 44_poll.md. -/
namespace Sys2Proof.Machine

/-- Settles O31: each round of the loop is one channel's part of the pass. -/
theorem pollIsTheScanDecodeLoop : Obligations.PollIsTheScanDecodeLoop := by
  intro s
  obtain ⟨o, hloop⟩ := pollLoop_eq (s := s) (done := []) rfl
  exact ⟨_, _, exec_poll s, hloop, rfl, rfl, rfl, rfl, rfl, rfl, by simp [State.numReaders, length_pollFrom], rfl⟩

/-- Settles O32, by what one channel's part of the pass can emit. -/
theorem pollEventsAscendByChannel : Obligations.PollEventsAscendByChannel := by
  intro s t h
  refine ⟨?_, fun e he => exec_poll_event h he⟩
  rw [exec_poll] at h
  cases h
  exact List.pairwise_map.mpr (pollFrom_events_ascend s.config 0 s.channels)

/-- Settles O33: a channel with an empty frame is only scanned. -/
theorem pollOfAnIdleChannelTouchesOnlyTheCountdown : Obligations.PollOfAnIdleChannelTouchesOnlyTheCountdown := by
  refine ⟨fun s t c ch hc hbc h => ?_, fun s hs => ?_⟩
  · have hev := exec_poll_eventsOf h hc
    have hch' := exec_poll_channel? h c
    rw [pollChannel_of_empty s.config c hbc] at hev
    rw [hc, Option.map_some, pollChannel_of_empty s.config c hbc] at hch'
    refine ⟨hev, _, hch', Channel.scan_ready, fun hr hcount => ?_⟩
    have hpos : ch.inactivityCounter.toNat ≠ 0 := fun h0 => hcount (BitVec.eq_of_toNat_eq h0)
    have hdown := toNat_countDown ch.inactivityCounter
    rw [Channel.scan_running hr]
    exact ⟨rfl, by dsimp only; omega, decide_eq_true_iff⟩
  · obtain ⟨cfg, chs, ins, outs⟩ := s
    obtain rfl : chs = [] := List.length_eq_zero_iff.mp hs
    rfl

/-- Settles O34, row by row of the table: `REG`, either edge, and a `POLL` on an idle and on an accumulating channel. -/
theorem channelStateMachineTransitions : Obligations.ChannelStateMachineTransitions := by
  refine ⟨fun l0 l1 cb s t h hok => ?_, fun c s ch i hc hi hmax => ?_, fun c s ch hc => ?_⟩
  · obtain rfl := exec_reg_ok h hok
    exact ⟨_, s.channel?_complete_append_self _ _, Channel.phase_idle.mpr rfl, rfl, rfl⟩
  · obtain ⟨b, hexec⟩ := exec_edge_some hi hc
    have hpending := Channel.framePending_iff.mp (Channel.framePending_capture hmax ch b)
    refine ⟨_, _, hexec, State.channel?_complete_set_self hc _ _, Channel.phase_accumulating.mpr hpending,
      congrArg Channel.inactivityCounter (ch.capture_eq s.config b), fun hidle => ?_, fun _ hle => ?_⟩
    · exact Channel.bitCount_capture_of_empty hmax (Channel.phase_idle.mp hidle) b
    · exact Channel.toNat_bitCount_capture_eq_min hle b
  · have hev := exec_poll_eventsOf (exec_poll s) hc
    have hch' := exec_poll_channel? (exec_poll s) c
    rw [hc, Option.map_some] at hch'
    refine ⟨_, _, exec_poll s, hch', fun hidle hr => ?_, fun hidle hr => ?_, fun hacc hcount => ?_, fun hacc hcount => ?_⟩
    · rw [pollChannel_of_empty_ready s.config c hr (Channel.phase_idle.mp hidle)]
    · have hbc := Channel.phase_idle.mp hidle
      rw [pollChannel_of_empty s.config c hbc, Channel.scan_running hr]
      exact ⟨Channel.phase_idle.mpr hbc, toNat_countDown _, decide_eq_true_iff⟩
    · obtain ⟨hbc, hr⟩ := Channel.phase_accumulating.mp hacc
      have hne : countDown ch.inactivityCounter ≠ 0#12 := fun h => (countDown_eq_zero_iff.mp h).not_gt hcount
      rw [pollChannel_tick s.config c hr hne]
      exact ⟨Channel.phase_accumulating.mpr ⟨hbc, hr⟩, rfl, toNat_countDown _⟩
    · obtain ⟨hbc, hr⟩ := Channel.phase_accumulating.mp hacc
      have hdec := pollChannel_of_one s.config c hbc hr hcount
      rw [hdec] at hev
      rw [hdec, decodeChannel_fst]
      refine ⟨Channel.phase_idle.mpr rfl, rfl, rfl, fun hcb => ?_⟩
      obtain ⟨e, he, -⟩ := decodeChannel_one_event s.config c (ch := ch.expired) hcb
      rw [hev, he]
      rfl

end Sys2Proof.Machine
end

section
/-! SUPPORT. Where an operation answers a next state, one lemma for each form of `exec`'s arms (R107 d, R101, R140), and the
events of an operation that has a code (R166). -/
namespace Sys2Proof.Machine

/-! ### Where an operation answers a next state -/

theorem onChannel_next_iff {c : Nat} {s : State} {f : Channel → Channel × List DecodeEvent} :
    (∃ t, onChannel c s f = .next t) ↔ c < s.numReaders := by
  constructor
  · rintro ⟨t, h⟩
    obtain ⟨ch, hc, -⟩ := onChannel_next h
    exact State.channel?_lt hc
  · intro hlt
    exact ⟨_, onChannel_some (List.getElem?_eq_getElem hlt) f⟩

/-- A frame kind is performed exactly on the finished frame that it is (R131, log 6). -/
theorem onFrame_next_iff {c : Nat} {frame : List Bool} {s : State} : (∃ t, onFrame c frame s = .next t) ↔
    ((s.channel? c).any fun ch => ch.finished && decide (ch.frame = frame)) = true := by
  simp only [Option.any_eq_true, Bool.and_eq_true, decide_eq_true_eq]
  constructor
  · rintro ⟨t, h⟩
    obtain ⟨ch, hc, hfin, hframe, -⟩ := onFrame_next h
    exact ⟨ch, hc, hfin, hframe⟩
  · rintro ⟨ch, hc, hfin, hframe⟩
    exact ⟨_, onFrame_held hc hfin hframe⟩

theorem exec_decode_next_iff {c : Nat} {s : State} :
    (∃ t, exec (.decode c) s = .next t) ↔ (s.channel? c).any Channel.finished = true := by
  cases hc : s.channel? c with
  | none => simp [exec_decode_none hc]
  | some ch => cases hfin : ch.finished <;> simp [exec_decode_some hc, hfin]

/-- `REG` answers at the cap too (R161); only with `CAP` = 0 and no physical channel left is there no answer (R101). -/
theorem exec_reg_next_iff {l0 l1 : LineId} {cb : Bool} {s : State} :
    (∃ t, exec (.reg l0 l1 cb) s = .next t) ↔ (s.capacityExceeded || !s.physicallyFull) = true := by
  by_cases hexc : s.capacityExceeded = true
  · simp [exec_reg_of_capacityExceeded hexc, hexc]
  · by_cases hfull : s.physicallyFull = true
    · simp [exec_reg_of_physicallyFull hexc hfull, hexc, hfull]
    · simp [exec_reg_of_room hexc hfull, hfull]

/-! ### The events of an operation that has a code -/

/-- The ports present the operations that have a code, and no other (R81, R89). -/
theorem encode_decodeOp (w : OpWord) : ∃ w', encode (decodeOp w) = some (.op w') := by
  unfold decodeOp
  split_ifs <;> exact ⟨_, rfl⟩

/-- Events are emitted by a decode, which no operation with a code performs but `POLL` (R166). -/
theorem exec_events_of_encode_op {i : Instr} {w : OpWord} {s t : State} (hcode : encode i = some (.op w)) (hi : i ≠ .poll)
    (h : exec i s = .next t) : t.outputs.events = [] := by
  rcases exec_next h with ⟨-, rfl⟩ | ⟨hpoll, -⟩ | ⟨_, _, _, -, ⟨-, rfl⟩ | ⟨-, -, rfl⟩⟩ |
    ⟨c, ch, ch', es, -, -, hstep, rfl⟩
  · rfl
  · exact absurd hpoll hi
  · rfl
  · rfl
  · cases hstep with
    | edge0 | edge1 | scan => rfl
    | decode => cases hcode
    | frame _ _ hframe => cases hcode.symm.trans hframe

end Sys2Proof.Machine
end

section
/-! Settles the statements of 60_exceptions.md. -/
namespace Sys2Proof.Machine

/-- Settles O13: each form of operation completes exactly under its own condition, and there is no reason to fault (R160). -/
theorem operationsCompleteExactlyWhenAccepted : Obligations.OperationsCompleteExactlyWhenAccepted := by
  refine fun i s => ⟨?_, nofun⟩
  cases i with
  | corp1000 | w26 | w32 | unsupported => exact onFrame_next_iff
  | nop | poll => exact iff_of_true ⟨_, rfl⟩ rfl
  | edge0 | edge1 | scan => exact onChannel_next_iff.trans decide_eq_true_iff.symm
  | reg => exact exec_reg_next_iff
  | reserved5 | reserved6 | reserved7 => exact iff_of_false nofun Bool.false_ne_true
  | decode => exact exec_decode_next_iff

/-- Settles O44: a step that idles or takes `rst` outputs nothing, and one that performs an operation performs one that has a
code. -/
theorem eventsComeOnlyFromPoll : Obligations.EventsComeOnlyFromPoll := by
  intro s t h hev
  rcases step_next h with ⟨-, rfl⟩ | ⟨x, rest, hin, ⟨-, rfl⟩ | ⟨hrst, hexec⟩⟩
  · exact absurd rfl hev
  · exact absurd rfl hev
  · refine ⟨x, rest, hin, hrst, by_contra fun hpoll => ?_⟩
    obtain ⟨w, hcode⟩ := encode_decodeOp x.word
    exact hev (exec_events_of_encode_op hcode hpoll hexec)

end Sys2Proof.Machine
end

section
/-! Settles the statements of 70_reset_and_hazards.md. -/
namespace Sys2Proof.Machine

/-- A step that samples `rst` = 1 is the power-on of the registry, whatever the op port carries (R213). -/
theorem step_rst {s : State} {w : OpWord} {rest : List PortSample} (h : s.inputs = ⟨true, w⟩ :: rest) :
    step s = .next (s.withInputs rest).powerOn := by
  rw [step_cons h, if_pos rfl]

/-- Settles O1: no index lies below `numReaders` = 0, and `rst` performs the power-on on the rest of the samples. -/
theorem powerOnAndRstLeaveNoChannel : Obligations.PowerOnAndRstLeaveNoChannel := by
  have hnone : State.reset.numReaders = 0 := rfl
  refine ⟨⟨hnone, fun c => ?_, rfl, rfl⟩, fun _ _ _ h => step_rst h⟩
  exact State.channel?_none.mpr (hnone.trans_le c.zero_le)

end Sys2Proof.Machine
end
